-- ==== Sys2Proof/Word.lean ====
section
/-!
DEFINITION. The widths of the machine's values (00_scope.md rules R4, R5, R6): every value is an unsigned
number of a stated width, so each is a bit vector of that width.
-/
namespace Sys2Proof

/-- An 8-bit value: a general register, a timer, a byte of memory (R20, R23, R28). -/
abbrev Byte := BitVec 8

/-- A 16-bit value: an instruction word, `PC`, `I`, a stack slot (R22, R25, R27, R90). -/
abbrev Word := BitVec 16

/-- A 4-bit field: a register number, the count `n`, the group, `SP` (R26, R91). -/
abbrev Nibble := BitVec 4

/-- The 12-bit address operand `nnn` (R91). -/
abbrev Addr := BitVec 12

end Sys2Proof
end

