-- ==== Sys2Proof/Syntax.lean ====
section
/-!
DEFINITION. The instruction set: one constructor for each of the 34 rows of spec/opcode_table.json, with the
fields the row names (30_encoding.md rules R91 to R95). Each field has its own width in its type, so every term
is an instruction the encoding admits.
-/
namespace Sys2Proof

inductive Instr where
  /-- `00E0` CLS (R180). -/
  | cls
  /-- `00EE` RET (R142). -/
  | ret
  /-- `1nnn` JP addr (R140). -/
  | jp (nnn : Addr)
  /-- `2nnn` CALL addr (R141). -/
  | call (nnn : Addr)
  /-- `3xkk` SE Vx, byte (R144). -/
  | seImm (x : Nibble) (kk : Byte)
  /-- `4xkk` SNE Vx, byte (R145). -/
  | sneImm (x : Nibble) (kk : Byte)
  /-- `5xy0` SE Vx, Vy (R146). -/
  | seReg (x y : Nibble)
  /-- `6xkk` LD Vx, byte (R150). -/
  | ldImm (x : Nibble) (kk : Byte)
  /-- `7xkk` ADD Vx, byte (R151). -/
  | addImm (x : Nibble) (kk : Byte)
  /-- `8xy0` LD Vx, Vy (R160). -/
  | ldReg (x y : Nibble)
  /-- `8xy1` OR Vx, Vy (R161). -/
  | orReg (x y : Nibble)
  /-- `8xy2` AND Vx, Vy (R162). -/
  | andReg (x y : Nibble)
  /-- `8xy3` XOR Vx, Vy (R163). -/
  | xorReg (x y : Nibble)
  /-- `8xy4` ADD Vx, Vy (R164). -/
  | addReg (x y : Nibble)
  /-- `8xy5` SUB Vx, Vy (R165). -/
  | subReg (x y : Nibble)
  /-- `8xy6` SHR Vx; `y` is encoded and ignored (R166). -/
  | shr (x y : Nibble)
  /-- `8xy7` SUBN Vx, Vy (R167). -/
  | subnReg (x y : Nibble)
  /-- `8xyE` SHL Vx; `y` is encoded and ignored (R168). -/
  | shl (x y : Nibble)
  /-- `9xy0` SNE Vx, Vy (R147). -/
  | sneReg (x y : Nibble)
  /-- `Annn` LD I, addr (R152). -/
  | ldI (nnn : Addr)
  /-- `Bnnn` JP V0, addr (R143). -/
  | jpV0 (nnn : Addr)
  /-- `Cxkk` RND Vx, byte (R153). -/
  | rnd (x : Nibble) (kk : Byte)
  /-- `Dxyn` DRW Vx, Vy, nibble (R181). -/
  | drw (x y n : Nibble)
  /-- `Ex9E` SKP Vx: recognised, not implemented by the hardware (R201). -/
  | skp (x : Nibble)
  /-- `ExA1` SKNP Vx: recognised, not implemented by the hardware (R202). -/
  | sknp (x : Nibble)
  /-- `Fx07` LD Vx, DT (R190). -/
  | ldVxDt (x : Nibble)
  /-- `Fx0A` LD Vx, K: recognised, not implemented by the hardware (R200). -/
  | ldVxK (x : Nibble)
  /-- `Fx15` LD DT, Vx (R191). -/
  | ldDtVx (x : Nibble)
  /-- `Fx18` LD ST, Vx (R192). -/
  | ldStVx (x : Nibble)
  /-- `Fx1E` ADD I, Vx (R193). -/
  | addI (x : Nibble)
  /-- `Fx29` LD F, Vx (R194). -/
  | ldF (x : Nibble)
  /-- `Fx33` LD B, Vx (R195). -/
  | ldB (x : Nibble)
  /-- `Fx55` LD [I], Vx: store `V[0]` to `V[x]` (R196). -/
  | storeRegs (x : Nibble)
  /-- `Fx65` LD Vx, [I]: load `V[0]` to `V[x]` (R197). -/
  | loadRegs (x : Nibble)
  deriving DecidableEq, Repr

end Sys2Proof
end

