-- ==== Sys2Proof/WellFormed.lean ====
section
/-!
DEFINITION. Which instructions can be written down. The fields of `Instr` carry their widths, so every `Instr`
is well formed; what can be ill formed is a LINE OF ASSEMBLER TEXT, whose operands are numbers of any size
(30_encoding.md rule R103: "`Vx`, `Vy` are `V0` to `VF`; `addr` is 0 to `0xFFF`; `byte` is 0 to `0xFF`; `nibble` is 0
to `0xF`"). This file gives the lines, their check, and the instruction a line stands for; Decode.lean assembles
them. There are no pseudo-instructions (R104).
-/
namespace Sys2Proof

/-- The mnemonics of R103. -/
inductive Mnemonic where
  | cls | ret | jp | call | se | sne | ld | add | or | and | xor | sub | shr | subn | shl | rnd | drw | skp | sknp
  /-- The data directive `DW word`. -/
  | dw
  deriving DecidableEq, Repr

/-- The operand spellings of R103. -/
inductive Arg where
  /-- `V0` to `VF`: the register number. -/
  | v (r : Nat)
  /-- A number: `addr`, `byte`, `nibble` or `word`. -/
  | num (n : Nat)
  /-- `I`. -/
  | index
  /-- `[I]`. -/
  | atIndex
  /-- `DT`. -/
  | dt
  /-- `ST`. -/
  | st
  /-- `K`. -/
  | key
  /-- `F`. -/
  | font
  /-- `B`. -/
  | bcd
  deriving DecidableEq, Repr

/-- One line: "One instruction per line". -/
structure Line where
  op : Mnemonic
  args : List Arg
  deriving DecidableEq, Repr

/-- A register number must be 0 to 15. -/
def reg? (r : Nat) : Option Nibble := if r < 16 then some (BitVec.ofNat 4 r) else none

/-- A `nibble` must be 0 to 15. -/
def nibble? (n : Nat) : Option Nibble := if n < 16 then some (BitVec.ofNat 4 n) else none

/-- A `byte` must be 0 to 255. -/
def byte? (n : Nat) : Option Byte := if n < 256 then some (BitVec.ofNat 8 n) else none

/-- An `addr` must be 0 to 4095. -/
def addr? (n : Nat) : Option Addr := if n < 4096 then some (BitVec.ofNat 12 n) else none

/-- The word of a `DW` line must be 0 to 65535. -/
def word? (n : Nat) : Option Word := if n < 65536 then some (BitVec.ofNat 16 n) else none

def xkk (f : Nibble → Byte → Instr) (x kk : Nat) : Option Instr :=
  (reg? x).bind fun x => (byte? kk).map (f x)

def xy (f : Nibble → Nibble → Instr) (x y : Nat) : Option Instr :=
  (reg? x).bind fun x => (reg? y).map (f x)

/-- The instruction a line stands for; none where the line is ill formed (or is `DW`). One line of R103 for each
pattern; `SHR Vx` and `SHL Vx` leave `y` 0, `SHR Vx, Vy` and `SHL Vx, Vy` keep it. -/
def Line.instr (l : Line) : Option Instr :=
  match l.op, l.args with
  | .cls, [] => some .cls
  | .ret, [] => some .ret
  | .jp, [.num a] => (addr? a).map .jp
  | .jp, [.v 0, .num a] => (addr? a).map .jpV0
  | .call, [.num a] => (addr? a).map .call
  | .se, [.v x, .num k] => xkk .seImm x k
  | .se, [.v x, .v y] => xy .seReg x y
  | .sne, [.v x, .num k] => xkk .sneImm x k
  | .sne, [.v x, .v y] => xy .sneReg x y
  | .ld, [.v x, .num k] => xkk .ldImm x k
  | .ld, [.v x, .v y] => xy .ldReg x y
  | .ld, [.index, .num a] => (addr? a).map .ldI
  | .ld, [.v x, .dt] => (reg? x).map .ldVxDt
  | .ld, [.v x, .key] => (reg? x).map .ldVxK
  | .ld, [.dt, .v x] => (reg? x).map .ldDtVx
  | .ld, [.st, .v x] => (reg? x).map .ldStVx
  | .ld, [.font, .v x] => (reg? x).map .ldF
  | .ld, [.bcd, .v x] => (reg? x).map .ldB
  | .ld, [.atIndex, .v x] => (reg? x).map .storeRegs
  | .ld, [.v x, .atIndex] => (reg? x).map .loadRegs
  | .add, [.v x, .num k] => xkk .addImm x k
  | .add, [.v x, .v y] => xy .addReg x y
  | .add, [.index, .v x] => (reg? x).map .addI
  | .or, [.v x, .v y] => xy .orReg x y
  | .and, [.v x, .v y] => xy .andReg x y
  | .xor, [.v x, .v y] => xy .xorReg x y
  | .sub, [.v x, .v y] => xy .subReg x y
  | .shr, [.v x] => xy .shr x 0
  | .shr, [.v x, .v y] => xy .shr x y
  | .subn, [.v x, .v y] => xy .subnReg x y
  | .shl, [.v x] => xy .shl x 0
  | .shl, [.v x, .v y] => xy .shl x y
  | .rnd, [.v x, .num k] => xkk .rnd x k
  | .drw, [.v x, .v y, .num n] => (reg? x).bind fun x => (reg? y).bind fun y => (nibble? n).map (.drw x y)
  | .skp, [.v x] => (reg? x).map .skp
  | .sknp, [.v x] => (reg? x).map .sknp
  | _, _ => none

/-- The word a `DW` line emits. -/
def Line.data (l : Line) : Option Word :=
  match l.op, l.args with
  | .dw, [.num n] => word? n
  | _, _ => none

/-- The check of a line: it has the operands of one line of R103, each in its range. -/
def Line.wellFormed (l : Line) : Bool := l.instr.isSome || l.data.isSome

/-- The line R103 writes for an instruction (with both operands for the shifts, so that `y` is kept). -/
def Instr.line : Instr → Line
  | .cls => ⟨.cls, []⟩
  | .ret => ⟨.ret, []⟩
  | .jp a => ⟨.jp, [.num a.toNat]⟩
  | .call a => ⟨.call, [.num a.toNat]⟩
  | .seImm x k => ⟨.se, [.v x.toNat, .num k.toNat]⟩
  | .sneImm x k => ⟨.sne, [.v x.toNat, .num k.toNat]⟩
  | .seReg x y => ⟨.se, [.v x.toNat, .v y.toNat]⟩
  | .ldImm x k => ⟨.ld, [.v x.toNat, .num k.toNat]⟩
  | .addImm x k => ⟨.add, [.v x.toNat, .num k.toNat]⟩
  | .ldReg x y => ⟨.ld, [.v x.toNat, .v y.toNat]⟩
  | .orReg x y => ⟨.or, [.v x.toNat, .v y.toNat]⟩
  | .andReg x y => ⟨.and, [.v x.toNat, .v y.toNat]⟩
  | .xorReg x y => ⟨.xor, [.v x.toNat, .v y.toNat]⟩
  | .addReg x y => ⟨.add, [.v x.toNat, .v y.toNat]⟩
  | .subReg x y => ⟨.sub, [.v x.toNat, .v y.toNat]⟩
  | .shr x y => ⟨.shr, [.v x.toNat, .v y.toNat]⟩
  | .subnReg x y => ⟨.subn, [.v x.toNat, .v y.toNat]⟩
  | .shl x y => ⟨.shl, [.v x.toNat, .v y.toNat]⟩
  | .sneReg x y => ⟨.sne, [.v x.toNat, .v y.toNat]⟩
  | .ldI a => ⟨.ld, [.index, .num a.toNat]⟩
  | .jpV0 a => ⟨.jp, [.v 0, .num a.toNat]⟩
  | .rnd x k => ⟨.rnd, [.v x.toNat, .num k.toNat]⟩
  | .drw x y n => ⟨.drw, [.v x.toNat, .v y.toNat, .num n.toNat]⟩
  | .skp x => ⟨.skp, [.v x.toNat]⟩
  | .sknp x => ⟨.sknp, [.v x.toNat]⟩
  | .ldVxDt x => ⟨.ld, [.v x.toNat, .dt]⟩
  | .ldVxK x => ⟨.ld, [.v x.toNat, .key]⟩
  | .ldDtVx x => ⟨.ld, [.dt, .v x.toNat]⟩
  | .ldStVx x => ⟨.ld, [.st, .v x.toNat]⟩
  | .addI x => ⟨.add, [.index, .v x.toNat]⟩
  | .ldF x => ⟨.ld, [.font, .v x.toNat]⟩
  | .ldB x => ⟨.ld, [.bcd, .v x.toNat]⟩
  | .storeRegs x => ⟨.ld, [.atIndex, .v x.toNat]⟩
  | .loadRegs x => ⟨.ld, [.v x.toNat, .atIndex]⟩

end Sys2Proof
end

