-- ==== Sys2Proof/Decode.lean ====
section
/-!
DEFINITION. Fields, decoder, encoder, opcode map and assembler (30_encoding.md). Decoding reads the word alone
(R90, R94): no mode changes it.
-/
namespace Sys2Proof

/-! ### Fields of an instruction word (R91) -/

/-- `w[15:12]`. -/
def fieldGroup (w : Word) : Nibble := w.extractLsb' 12 4
/-- `w[11:8]`. -/
def fieldX (w : Word) : Nibble := w.extractLsb' 8 4
/-- `w[7:4]`. -/
def fieldY (w : Word) : Nibble := w.extractLsb' 4 4
/-- `w[3:0]`. -/
def fieldN (w : Word) : Nibble := w.extractLsb' 0 4
/-- `w[7:0]`. -/
def fieldKK (w : Word) : Byte := w.extractLsb' 0 8
/-- `w[11:0]`. -/
def fieldNNN (w : Word) : Addr := w.extractLsb' 0 12

/-! ### Decode (R94) -/

/-- The one way a word is no instruction: `UnknownOpcode(word)`, "carrying the raw word" (R211). -/
inductive DecodeError where
  | unknownOpcode (w : Word)
  deriving DecidableEq, Repr

/-- Group 0 is selected by the low byte alone (R96). -/
def decodeGroup0 (w : Word) : Except DecodeError Instr :=
  if fieldKK w = 0xE0#8 then .ok .cls
  else if fieldKK w = 0xEE#8 then .ok .ret
  else .error (.unknownOpcode w)

/-- Group 8 is selected by `n` (R98). -/
def decodeGroup8 (w : Word) : Except DecodeError Instr :=
  if fieldN w = 0x0#4 then .ok (.ldReg (fieldX w) (fieldY w))
  else if fieldN w = 0x1#4 then .ok (.orReg (fieldX w) (fieldY w))
  else if fieldN w = 0x2#4 then .ok (.andReg (fieldX w) (fieldY w))
  else if fieldN w = 0x3#4 then .ok (.xorReg (fieldX w) (fieldY w))
  else if fieldN w = 0x4#4 then .ok (.addReg (fieldX w) (fieldY w))
  else if fieldN w = 0x5#4 then .ok (.subReg (fieldX w) (fieldY w))
  else if fieldN w = 0x6#4 then .ok (.shr (fieldX w) (fieldY w))
  else if fieldN w = 0x7#4 then .ok (.subnReg (fieldX w) (fieldY w))
  else if fieldN w = 0xE#4 then .ok (.shl (fieldX w) (fieldY w))
  else .error (.unknownOpcode w)

/-- Group E is selected by `kk` (R99). The spec's decode yields `OpcodeNotImplemented` for the two words; here
they decode to their table rows, whose meaning raises it with the same word. -/
def decodeGroupE (w : Word) : Except DecodeError Instr :=
  if fieldKK w = 0x9E#8 then .ok (.skp (fieldX w))
  else if fieldKK w = 0xA1#8 then .ok (.sknp (fieldX w))
  else .error (.unknownOpcode w)

/-- Group F is selected by `kk` (R100). -/
def decodeGroupF (w : Word) : Except DecodeError Instr :=
  if fieldKK w = 0x07#8 then .ok (.ldVxDt (fieldX w))
  else if fieldKK w = 0x0A#8 then .ok (.ldVxK (fieldX w))
  else if fieldKK w = 0x15#8 then .ok (.ldDtVx (fieldX w))
  else if fieldKK w = 0x18#8 then .ok (.ldStVx (fieldX w))
  else if fieldKK w = 0x1E#8 then .ok (.addI (fieldX w))
  else if fieldKK w = 0x29#8 then .ok (.ldF (fieldX w))
  else if fieldKK w = 0x33#8 then .ok (.ldB (fieldX w))
  else if fieldKK w = 0x55#8 then .ok (.storeRegs (fieldX w))
  else if fieldKK w = 0x65#8 then .ok (.loadRegs (fieldX w))
  else .error (.unknownOpcode w)

/-- R94: a total function of the word. The last case is group F. -/
def decode (w : Word) : Except DecodeError Instr :=
  if fieldGroup w = 0x0#4 then decodeGroup0 w
  else if fieldGroup w = 0x1#4 then .ok (.jp (fieldNNN w))
  else if fieldGroup w = 0x2#4 then .ok (.call (fieldNNN w))
  else if fieldGroup w = 0x3#4 then .ok (.seImm (fieldX w) (fieldKK w))
  else if fieldGroup w = 0x4#4 then .ok (.sneImm (fieldX w) (fieldKK w))
  else if fieldGroup w = 0x5#4 then
    if fieldN w = 0x0#4 then .ok (.seReg (fieldX w) (fieldY w)) else .error (.unknownOpcode w)
  else if fieldGroup w = 0x6#4 then .ok (.ldImm (fieldX w) (fieldKK w))
  else if fieldGroup w = 0x7#4 then .ok (.addImm (fieldX w) (fieldKK w))
  else if fieldGroup w = 0x8#4 then decodeGroup8 w
  else if fieldGroup w = 0x9#4 then
    if fieldN w = 0x0#4 then .ok (.sneReg (fieldX w) (fieldY w)) else .error (.unknownOpcode w)
  else if fieldGroup w = 0xA#4 then .ok (.ldI (fieldNNN w))
  else if fieldGroup w = 0xB#4 then .ok (.jpV0 (fieldNNN w))
  else if fieldGroup w = 0xC#4 then .ok (.rnd (fieldX w) (fieldKK w))
  else if fieldGroup w = 0xD#4 then .ok (.drw (fieldX w) (fieldY w) (fieldN w))
  else if fieldGroup w = 0xE#4 then decodeGroupE w
  else decodeGroupF w

/-- The word of two bytes, the first one high (R67, R90). -/
def wordOfBytes (hi lo : Byte) : Word := hi ++ lo

/-- The two bytes of a word as memory holds them, the high byte first (R67, R90). -/
def bytesOfWord (w : Word) : List Byte := [w.extractLsb' 8 8, w.extractLsb' 0 8]

/-- Why a byte list begins with no instruction. -/
inductive BytesError where
  /-- Fewer than two bytes are left. -/
  | truncated
  /-- The two bytes are a word without a row. -/
  | unknownOpcode (w : Word)
  deriving DecidableEq, Repr

/-- The instruction at the head of a byte list, and the bytes after it: every instruction is two bytes (R90). -/
def decodeBytes : List Byte → Except BytesError (Instr × List Byte)
  | hi :: lo :: rest =>
    match decode (wordOfBytes hi lo) with
    | .ok i => .ok (i, rest)
    | .error (.unknownOpcode w) => .error (.unknownOpcode w)
  | _ => .error .truncated

/-! ### Encode (R92, R95) -/

/-- Formats `NNN`. -/
def wordNNN (g : Nibble) (nnn : Addr) : Word := g ++ nnn
/-- Formats `Z`, `XKK` and `XFF`: the low byte is `kk` or the function. -/
def wordXKK (g x : Nibble) (kk : Byte) : Word := g ++ x ++ kk
/-- Formats `XYF` and `XYN`: the low nibble is the function or `n`. -/
def wordXYN (g x y n : Nibble) : Word := g ++ x ++ y ++ n

/-- The canonical word of an instruction: bits 11:8 of CLS and RET are 0 (R96). -/
def encode : Instr → Word
  | .cls => wordXKK 0x0#4 0x0#4 0xE0#8
  | .ret => wordXKK 0x0#4 0x0#4 0xEE#8
  | .jp nnn => wordNNN 0x1#4 nnn
  | .call nnn => wordNNN 0x2#4 nnn
  | .seImm x kk => wordXKK 0x3#4 x kk
  | .sneImm x kk => wordXKK 0x4#4 x kk
  | .seReg x y => wordXYN 0x5#4 x y 0x0#4
  | .ldImm x kk => wordXKK 0x6#4 x kk
  | .addImm x kk => wordXKK 0x7#4 x kk
  | .ldReg x y => wordXYN 0x8#4 x y 0x0#4
  | .orReg x y => wordXYN 0x8#4 x y 0x1#4
  | .andReg x y => wordXYN 0x8#4 x y 0x2#4
  | .xorReg x y => wordXYN 0x8#4 x y 0x3#4
  | .addReg x y => wordXYN 0x8#4 x y 0x4#4
  | .subReg x y => wordXYN 0x8#4 x y 0x5#4
  | .shr x y => wordXYN 0x8#4 x y 0x6#4
  | .subnReg x y => wordXYN 0x8#4 x y 0x7#4
  | .shl x y => wordXYN 0x8#4 x y 0xE#4
  | .sneReg x y => wordXYN 0x9#4 x y 0x0#4
  | .ldI nnn => wordNNN 0xA#4 nnn
  | .jpV0 nnn => wordNNN 0xB#4 nnn
  | .rnd x kk => wordXKK 0xC#4 x kk
  | .drw x y n => wordXYN 0xD#4 x y n
  | .skp x => wordXKK 0xE#4 x 0x9E#8
  | .sknp x => wordXKK 0xE#4 x 0xA1#8
  | .ldVxDt x => wordXKK 0xF#4 x 0x07#8
  | .ldVxK x => wordXKK 0xF#4 x 0x0A#8
  | .ldDtVx x => wordXKK 0xF#4 x 0x15#8
  | .ldStVx x => wordXKK 0xF#4 x 0x18#8
  | .addI x => wordXKK 0xF#4 x 0x1E#8
  | .ldF x => wordXKK 0xF#4 x 0x29#8
  | .ldB x => wordXKK 0xF#4 x 0x33#8
  | .storeRegs x => wordXKK 0xF#4 x 0x55#8
  | .loadRegs x => wordXKK 0xF#4 x 0x65#8

/-- The canonical form of a word: bits 11:8 cleared where decode ignores them, that is in group 0 (R96). -/
def canonicalWord (w : Word) : Word := if fieldGroup w = 0x0#4 then w &&& 0xF0FF#16 else w

/-- The group an instruction belongs to, the top nibble of its words (R91, R102). -/
def Instr.group : Instr → Nibble
  | .cls | .ret => 0x0#4
  | .jp _ => 0x1#4
  | .call _ => 0x2#4
  | .seImm _ _ => 0x3#4
  | .sneImm _ _ => 0x4#4
  | .seReg _ _ => 0x5#4
  | .ldImm _ _ => 0x6#4
  | .addImm _ _ => 0x7#4
  | .ldReg _ _ | .orReg _ _ | .andReg _ _ | .xorReg _ _ | .addReg _ _ | .subReg _ _ => 0x8#4
  | .shr _ _ | .subnReg _ _ | .shl _ _ => 0x8#4
  | .sneReg _ _ => 0x9#4
  | .ldI _ => 0xA#4
  | .jpV0 _ => 0xB#4
  | .rnd _ _ => 0xC#4
  | .drw _ _ _ => 0xD#4
  | .skp _ | .sknp _ => 0xE#4
  | .ldVxDt _ | .ldVxK _ | .ldDtVx _ | .ldStVx _ | .addI _ | .ldF _ | .ldB _ | .storeRegs _ | .loadRegs _ => 0xF#4

/-- `OpcodeNotImplemented` is raised for these rows and no others (R212). -/
def Instr.isKeyInstr : Instr → Bool
  | .skp _ => true
  | .sknp _ => true
  | .ldVxK _ => true
  | _ => false

/-! ### The opcode map (R95) -/

/-- One line of R95: a word `w` selects it when `w & mask == match`. -/
structure OpcodeRow where
  mask : Word
  pattern : Word
  /-- The instruction a word of the row stands for. -/
  instr : Word → Instr

def OpcodeRow.selects (r : OpcodeRow) (w : Word) : Bool := w &&& r.mask == r.pattern

/-- The 34 lines of R95, in its order. -/
def opcodeMap : List OpcodeRow :=
  [ ⟨0xF0FF#16, 0x00E0#16, fun _ => .cls⟩,
    ⟨0xF0FF#16, 0x00EE#16, fun _ => .ret⟩,
    ⟨0xF000#16, 0x1000#16, fun w => .jp (fieldNNN w)⟩,
    ⟨0xF000#16, 0x2000#16, fun w => .call (fieldNNN w)⟩,
    ⟨0xF000#16, 0x3000#16, fun w => .seImm (fieldX w) (fieldKK w)⟩,
    ⟨0xF000#16, 0x4000#16, fun w => .sneImm (fieldX w) (fieldKK w)⟩,
    ⟨0xF00F#16, 0x5000#16, fun w => .seReg (fieldX w) (fieldY w)⟩,
    ⟨0xF000#16, 0x6000#16, fun w => .ldImm (fieldX w) (fieldKK w)⟩,
    ⟨0xF000#16, 0x7000#16, fun w => .addImm (fieldX w) (fieldKK w)⟩ ] ++
  [ ⟨0xF00F#16, 0x8000#16, fun w => .ldReg (fieldX w) (fieldY w)⟩,
    ⟨0xF00F#16, 0x8001#16, fun w => .orReg (fieldX w) (fieldY w)⟩,
    ⟨0xF00F#16, 0x8002#16, fun w => .andReg (fieldX w) (fieldY w)⟩,
    ⟨0xF00F#16, 0x8003#16, fun w => .xorReg (fieldX w) (fieldY w)⟩,
    ⟨0xF00F#16, 0x8004#16, fun w => .addReg (fieldX w) (fieldY w)⟩,
    ⟨0xF00F#16, 0x8005#16, fun w => .subReg (fieldX w) (fieldY w)⟩,
    ⟨0xF00F#16, 0x8006#16, fun w => .shr (fieldX w) (fieldY w)⟩,
    ⟨0xF00F#16, 0x8007#16, fun w => .subnReg (fieldX w) (fieldY w)⟩,
    ⟨0xF00F#16, 0x800E#16, fun w => .shl (fieldX w) (fieldY w)⟩,
    ⟨0xF00F#16, 0x9000#16, fun w => .sneReg (fieldX w) (fieldY w)⟩ ] ++
  [ ⟨0xF000#16, 0xA000#16, fun w => .ldI (fieldNNN w)⟩,
    ⟨0xF000#16, 0xB000#16, fun w => .jpV0 (fieldNNN w)⟩,
    ⟨0xF000#16, 0xC000#16, fun w => .rnd (fieldX w) (fieldKK w)⟩,
    ⟨0xF000#16, 0xD000#16, fun w => .drw (fieldX w) (fieldY w) (fieldN w)⟩,
    ⟨0xF0FF#16, 0xE09E#16, fun w => .skp (fieldX w)⟩,
    ⟨0xF0FF#16, 0xE0A1#16, fun w => .sknp (fieldX w)⟩ ] ++
  [ ⟨0xF0FF#16, 0xF007#16, fun w => .ldVxDt (fieldX w)⟩,
    ⟨0xF0FF#16, 0xF00A#16, fun w => .ldVxK (fieldX w)⟩,
    ⟨0xF0FF#16, 0xF015#16, fun w => .ldDtVx (fieldX w)⟩,
    ⟨0xF0FF#16, 0xF018#16, fun w => .ldStVx (fieldX w)⟩,
    ⟨0xF0FF#16, 0xF01E#16, fun w => .addI (fieldX w)⟩,
    ⟨0xF0FF#16, 0xF029#16, fun w => .ldF (fieldX w)⟩,
    ⟨0xF0FF#16, 0xF033#16, fun w => .ldB (fieldX w)⟩,
    ⟨0xF0FF#16, 0xF055#16, fun w => .storeRegs (fieldX w)⟩,
    ⟨0xF0FF#16, 0xF065#16, fun w => .loadRegs (fieldX w)⟩ ]

/-! ### Assembler (R103) -/

/-- The bytes of a line: "The assembler emits the high byte first". -/
def assembleLine (l : Line) : Option (List Byte) :=
  match l.instr with
  | some i => some (bytesOfWord (encode i))
  | none => l.data.map bytesOfWord

/-- A program's bytes, line after line; none where a line is ill formed. -/
def assemble : List Line → Option (List Byte)
  | [] => some []
  | l :: rest => (assembleLine l).bind fun bytes => (assemble rest).map fun more => bytes ++ more

/-! ### The opcode table's numbering -/

/-- The word an instruction of `nbits` bits is, with every bit from `nbits` up 0: one 16-bit word is the whole
instruction (R90), so a longer one is none. -/
def tableWord (nbits w : Nat) : Word := BitVec.ofNat 16 (w % 2 ^ nbits)

/-- The instruction the decoder reads from an opcode-table word, laid out as memory holds it. -/
def decodeTableWord (nbits w : Nat) : Option Instr :=
  if 16 < nbits then none
  else
    match decodeBytes (bytesOfWord (tableWord nbits w)) with
    | .ok (i, _) => some i
    | .error _ => none

end Sys2Proof
end

