-- ==== Sys2Proof/Config.lean ====
section
/-!
DEFINITION. What is fixed for the machine (00_scope.md rule R4) and the free values: what the spec leaves open
as an input of the step relation (10_state.md rule R32). A free value is an opaque constant: no proof can learn
a value of it, so what is proved holds whatever it is. The font bytes and the default display size, which a test
could show wrong, stand in Machine/Parameters.lean.
-/
namespace Sys2Proof.Config

/-- `MEM_SIZE`: 4096 bytes, addresses 0 to 4095 (R4, R60). -/
def memSize : Nat := 4096

/-- `PROGRAM_ORIGIN` and the reset value of `PC` (R4, R31, R242). -/
def programOrigin : Nat := 0x200

/-- `TIMER_HZ` (R4). No rule of the untimed model reads it (R249). -/
def timerHz : Nat := 60

/-- `INSTR_HZ`: OPEN (R4, R129). "The value is a parameter no rule depends on". -/
opaque instrHz : Nat

/-- FREE VALUE: the byte the `rand` port delivers at the k-th draw of a run (R153, R7; log entry 2).
"Every one of the 256 values is a possible draw at every execution". -/
opaque randByte : Nat → Byte

/-- FREE VALUE: how many turns without a TIMER tick pass before the k-th turn that has one (R224, R249; log entry 3).
"The number of CPU ticks between two TIMER ticks is not fixed by the hardware". -/
opaque timerGap : Nat → Nat

/-- FREE VALUE: how many TIMER ticks beyond the first fall before a turn that has one (R249; log entry 3): "a thousand
TIMER ticks between two instructions" are admitted. -/
opaque timerExtra : Nat → Nat

end Sys2Proof.Config
end

