-- ==== Sys2Proof/Machine/Parameters.lean ====
section
/-!
DEFINITION. The parameters of 00_scope.md rule R4 whose value the spec gives only as a default: the 80 font bytes
and the display size. They stand here, and not in Config, because a test could show them wrong.
-/
namespace Sys2Proof.Machine

/-- `FONT[0..79]`, 16 glyphs of 5 bytes in digit order (R64, R65; PRESUMED: the spec's default, from general
knowledge, log entry 4). -/
def font : List Byte :=
  [ 0xF0#8, 0x90#8, 0x90#8, 0x90#8, 0xF0#8, 0x20#8, 0x60#8, 0x20#8, 0x20#8, 0x70#8,
    0xF0#8, 0x10#8, 0xF0#8, 0x80#8, 0xF0#8, 0xF0#8, 0x10#8, 0xF0#8, 0x10#8, 0xF0#8,
    0x90#8, 0x90#8, 0xF0#8, 0x10#8, 0x10#8, 0xF0#8, 0x80#8, 0xF0#8, 0x10#8, 0xF0#8 ] ++
  [ 0xF0#8, 0x80#8, 0xF0#8, 0x90#8, 0xF0#8, 0xF0#8, 0x10#8, 0x20#8, 0x40#8, 0x40#8,
    0xF0#8, 0x90#8, 0xF0#8, 0x90#8, 0xF0#8, 0xF0#8, 0x90#8, 0xF0#8, 0x10#8, 0xF0#8 ] ++
  [ 0xF0#8, 0x90#8, 0xF0#8, 0x90#8, 0x90#8, 0xE0#8, 0x90#8, 0xE0#8, 0x90#8, 0xE0#8,
    0xF0#8, 0x80#8, 0x80#8, 0x80#8, 0xF0#8, 0xE0#8, 0x90#8, 0x90#8, 0x90#8, 0xE0#8,
    0xF0#8, 0x80#8, 0xF0#8, 0x80#8, 0xF0#8, 0xF0#8, 0x80#8, 0xF0#8, 0x80#8, 0x80#8 ]

/-- `DISPLAY_W` of the display that reset attaches (R187; PRESUMED default, log entry 5). -/
def defaultDisplayW : Nat := 64

/-- `DISPLAY_H` of the display that reset attaches (R187; PRESUMED default, log entry 5). -/
def defaultDisplayH : Nat := 32

end Sys2Proof.Machine
end

