-- ==== Sys2Proof/Machine/Display.lean ====
section
/-!
DEFINITION. The display device and its port (44_display.md rules R182 to R188, 10_state.md rule R34). The size is
held beside the pixels, so that a statement about every state is one about every display size (log entry 5).
`update`, `init` and `close` are outside the core (R182).
-/
namespace Sys2Proof.Machine

/-- The framebuffer `FB`: the set pixels, as pixel numbers `row * width + col`, strictly rising. -/
structure Display where
  /-- `DISPLAY_W`. -/
  width : Nat
  /-- `DISPLAY_H`. -/
  height : Nat
  /-- The numbers of the pixels that are 1. -/
  lit : List Nat
  deriving DecidableEq, Repr

namespace Display

/-- The number of the pixel `FB[row][col]`. -/
def pixelNumber (d : Display) (row col : Nat) : Nat := row * d.width + col

/-- `FB[row][col] == 1`. -/
def pixel (d : Display) (row col : Nat) : Bool := d.lit.contains (d.pixelNumber row col)

/-- Put a number into a rising list, or take it out where it is there. -/
def flipIn : List Nat → Nat → List Nat
  | [], p => [p]
  | q :: rest, p => if p = q then rest else if p < q then p :: q :: rest else q :: flipIn rest p

/-- `FB[row][col] <- FB[row][col] ^ 1`. -/
def flip (d : Display) (row col : Nat) : Display := { d with lit := flipIn d.lit (d.pixelNumber row col) }

/-- The size is legal (R187: `DISPLAY_W >= 8`, `DISPLAY_H >= 1`). -/
def sizeOk (d : Display) : Bool := decide (8 ≤ d.width) && decide (1 ≤ d.height)

/-- Rising from `lo` and below `bound`. -/
def risingFrom (lo bound : Nat) : List Nat → Bool
  | [] => true
  | p :: rest => decide (lo ≤ p) && decide (p < bound) && risingFrom (p + 1) bound rest

/-- The canonical form: a legal size, and the set pixels rising, each inside the display. -/
def wf (d : Display) : Bool := d.sizeOk && risingFrom 0 (d.height * d.width) d.lit

/-- The display after reset: the default size, all pixels 0 (R31, R34). -/
def reset : Display := { width := defaultDisplayW, height := defaultDisplayH, lit := [] }

/-- `disp.clear()` (R183). -/
def clear (d : Display) : Display := { d with lit := [] }

/-- One set sprite bit landing on `FB[row][col]`: a pixel that was 1 makes a collision; then it is inverted (R184). -/
def plot (p : Display × Bool) (row col : Nat) : Display × Bool :=
  (p.1.flip row col, p.2 || p.1.pixel row col)

/-- Column `c` of a sprite byte, bit 7 leftmost (R184, R186). -/
def spriteBit (b : Byte) (c : Nat) : Bool := b.getLsbD (7 - c)

/-- The eight columns of one sprite row, left to right (R184). -/
def drawRow (x0 row : Nat) (b : Byte) (p : Display × Bool) : Display × Bool :=
  [0, 1, 2, 3, 4, 5, 6, 7].foldl
    (fun p c => if spriteBit b c then plot p row ((x0 + c) % p.1.width) else p) p

/-- The rows of a sprite from row `y0 + r` on, top to bottom, each wrapped to the height (R184). -/
def drawRows (x0 y0 : Nat) : Nat → List Byte → Display × Bool → Display × Bool
  | _, [], p => p
  | r, b :: rest, p => drawRows x0 y0 (r + 1) rest (drawRow x0 ((y0 + r) % p.1.height) b p)

/-- `disp.draw(x, y, bytes)`: the display after it, and the collision (R184, R185). -/
def draw (d : Display) (x y : Nat) (bytes : List Byte) : Display × Bool :=
  drawRows (x % d.width) (y % d.height) 0 bytes (d, false)

/-- "The reply is exactly 0 or 1, as an 8-bit value" (R185). -/
def collisionReply (collision : Bool) : Byte := if collision then 1#8 else 0#8

end Display

end Sys2Proof.Machine
end

