-- ==== Sys2Proof/Machine/State.lean ====
section
/-!
DEFINITION. The machine's state as plain data (10_state.md): "the tuple (V[0..15], I, DT, ST, PC, SP, Stack[0..15],
Mem[0..4095], RunState) owned by the core, plus the framebuffer FB owned by the display device. Nothing else is
state"; and the model's own two counters that index the free values (log entries 2 and 3).
-/
namespace Sys2Proof.Machine

/-- Why the machine has halted, with the payload (60_exceptions.md rule R210). `GroupMismatch` cannot occur and is
left out, as R216 says. -/
inductive HaltReason where
  /-- Decode: the word matches no row (R211). -/
  | unknownOpcode (word : Word)
  /-- `Fx0A`, `Ex9E`, `ExA1` (R212). -/
  | opcodeNotImplemented (word : Word)
  /-- An access or a `PC` outside memory; the address is a natural number above 4095 (R213, R61). -/
  | outOfBounds (addr : Nat)
  /-- `RET` with `SP == 0` (R214). -/
  | stackUnderflow
  /-- `CALL` with `SP == 15` (R215). -/
  | stackOverflow
  deriving DecidableEq, Repr

/-- `RunState` (R29). There is no third state. -/
inductive RunState where
  | running
  | halted (reason : HaltReason)
  deriving DecidableEq, Repr

structure State where
  /-- `V[0]` to `V[15]`; `V[15]` is `VF` (R20, R21). -/
  v : Vector Byte 16
  /-- `I` (R22). -/
  i : Word
  /-- `DT`, the delay timer (R23). -/
  dt : Byte
  /-- `ST`, the sound timer (R24). -/
  st : Byte
  /-- `PC` (R25). -/
  pc : Word
  /-- `SP` (R26). -/
  sp : Nibble
  /-- `Stack[0]` to `Stack[15]` (R27). -/
  stack : Vector Word 16
  /-- `Mem` (R28): the bytes that differ from what reset left there, addresses rising (Machine/Ops.lean). -/
  mem : List Host.Cell
  /-- `RunState` (R29). -/
  runState : RunState
  /-- `FB`, the display device's framebuffer, with the device's size (R34). -/
  display : Display
  /-- The MODEL's own: how many values the `rand` port has delivered; it indexes Config.randByte (log entry 2). -/
  draws : Nat
  /-- The MODEL's own: how many turns have been taken; it indexes the free schedule of the TIMER agent
  (log entry 3). -/
  turn : Nat
  deriving DecidableEq, Repr

/-- Why an operation of the model stops without a next state. No step of the machine does: every failure of an
instruction is the spec's own `Halted(reason)`, a next state (R219). -/
inductive Fault where
  /-- Raised by the HOST action `load` alone, when the image does not fit: "`OutOfBounds(max(origin, 4096))`, nothing
  is written and the machine does not start" (R63, R242). Safe: the spec gives no state to go on from. -/
  | loadOutOfBounds (addr : Nat)
  deriving DecidableEq, Repr

/-- Why an instruction has no meaning. -/
inductive Refusal where
  /-- Raised by an arm of `exec` whose instruction is not modelled; no arm raises it. Safe. -/
  | notModelled (mnemonic : String)
  deriving DecidableEq, Repr

/-- The machine right after `host.reset` (R31, R240): every register and slot 0, `PC` at the program origin, the
font and zeros in memory (nothing listed), a clear display, `Running`. The two counters start at 0 (log entries 2
and 3). -/
def State.reset : State where
  v := Vector.replicate 16 0#8
  i := 0#16
  dt := 0#8
  st := 0#8
  pc := 0x200#16
  sp := 0#4
  stack := Vector.replicate 16 0#16
  mem := []
  runState := .running
  display := Display.reset
  draws := 0
  turn := 0

end Sys2Proof.Machine
end

