-- ==== Sys2Proof/Machine/Ops.lean ====
section
/-!
DEFINITION. The named operations over memory, registers and the run state (20_memory.md, 60_exceptions.md), the
TIMER agent's tick, and the parts of a CPU tick around an instruction (40_execution_loop.md).
-/
namespace Sys2Proof.Machine

/-- What a meaning and a step answer. -/
abbrev Result := Host.Outcome State Fault Refusal

/-! ### Memory (R28, R60 to R64) -/

namespace Memory

/-- What an unlisted address reads as: the reset contents, the font at 0 to 79 and zero above (R31, R64). -/
def initialByte (a : Nat) : Byte := font.getD a 0#8

/-- `Mem[a]`, for an address inside memory (R61). -/
def read : List Host.Cell → Nat → Byte
  | [], a => initialByte a
  | (k, b) :: rest, a => if k = a then b else read rest a

/-- List the byte `b` at `a`, in the place its address has. -/
def insert : List Host.Cell → Nat → Byte → List Host.Cell
  | [], a, b => [(a, b)]
  | (k, c) :: rest, a, b =>
    if a = k then (a, b) :: rest else if a < k then (a, b) :: (k, c) :: rest else (k, c) :: insert rest a b

/-- Unlist the address `a`. -/
def erase : List Host.Cell → Nat → List Host.Cell
  | [], _ => []
  | (k, c) :: rest, a => if a = k then rest else (k, c) :: erase rest a

/-- `Mem[a] <- b`, for an address inside memory (R61). -/
def write (m : List Host.Cell) (a : Nat) (b : Byte) : List Host.Cell :=
  if b = initialByte a then erase m a else insert m a b

/-- Addresses rising from `lo`, each inside memory, no entry equal to what its unlisted address reads as. -/
def wfFrom : Nat → List Host.Cell → Bool
  | _, [] => true
  | lo, (k, b) :: rest =>
    decide (lo ≤ k) && decide (k < Config.memSize) && decide (b ≠ initialByte k) && wfFrom (k + 1) rest

/-- The canonical form of memory. -/
def wf (m : List Host.Cell) : Bool := wfFrom 0 m

/-- `[Mem[a], ..., Mem[a + count - 1]]` (R62). -/
def readRange (m : List Host.Cell) : Nat → Nat → List Byte
  | _, 0 => []
  | a, count + 1 => read m a :: readRange m (a + 1) count

/-- Store the bytes in ascending address order from `a` (R68, R70). -/
def writeRange : List Host.Cell → Nat → List Byte → List Host.Cell
  | m, _, [] => m
  | m, a, b :: rest => writeRange (write m a b) (a + 1) rest

/-- Whether the `count` bytes at `a` leave memory, and with which halt reason: the range is inside exactly when
`a + count <= 4096`; the payload is `max(a, 4096)` (R62, R79, R213). -/
def rangeFault (a count : Nat) : Option HaltReason :=
  if a + count ≤ Config.memSize then none else some (.outOfBounds (max a Config.memSize))

end Memory

/-! ### Registers -/

namespace State

/-- `V[x]` (R8, R20). -/
def reg (s : State) (x : Nibble) : Byte := s.v[x.toNat]'x.isLt

/-- `V[x] <- b` (R8, R20). No register is hardwired. -/
def setReg (s : State) (x : Nibble) (b : Byte) : State := { s with v := s.v.set x.toNat b x.isLt }

/-- `V[k], V[k+1], ...` receive the bytes in turn (R197). -/
def setRegsFrom : State → Nat → List Byte → State
  | s, _, [] => s
  | s, k, b :: rest => setRegsFrom (s.setReg (BitVec.ofNat 4 k) b) (k + 1) rest

/-- `[V[0], ..., V[x]]` (R196). -/
def regsUpTo (s : State) (x : Nibble) : List Byte := s.v.toList.take (x.toNat + 1)

/-- `Stack[k]` (R27). -/
def stackSlot (s : State) (k : Nibble) : Word := s.stack[k.toNat]'k.isLt

/-- `Stack[k] <- w` (R27). -/
def setStackSlot (s : State) (k : Nibble) (w : Word) : State := { s with stack := s.stack.set k.toNat w k.isLt }

/-- `SP <- k` (R26). -/
def setSp (s : State) (k : Nibble) : State := { s with sp := k }

/-- `PC <- w` (R25). -/
def setPc (s : State) (w : Word) : State := { s with pc := w }

/-- `I <- w` (R22). -/
def setI (s : State) (w : Word) : State := { s with i := w }

/-- `DT.set(b)` (R74, R191). -/
def setDt (s : State) (b : Byte) : State := { s with dt := b }

/-- `ST.set(b)` (R74, R192). -/
def setSt (s : State) (b : Byte) : State := { s with st := b }

/-- Memory replaced. -/
def setMem (s : State) (m : List Host.Cell) : State := { s with mem := m }

/-- The display replaced. -/
def setDisplay (s : State) (d : Display) : State := { s with display := d }

/-- One more value taken from the `rand` port (R153). -/
def countDraw (s : State) : State := { s with draws := s.draws + 1 }

/-- One more turn taken. -/
def countTurn (s : State) : State := { s with turn := s.turn + 1 }

/-- `PC <- A + 2`, where `A` is the address of the instruction (R124). -/
def next (s : State) : State := s.setPc (s.pc + 2#16)

end State

/-! ### Halting: taking a failure (R219) -/

/-- `raise E(info)`: "`RunState <- Halted(E(info))`", and only this. There is no return from it (R220). -/
def raise (r : HaltReason) (s : State) : State := { s with runState := .halted r }

/-- An instruction that uses the `count` bytes at `I`: the whole range is checked first (R79), and `go` is what it
does where the range is inside memory. -/
def withRange (count : Nat) (s : State) (go : State → State) : State :=
  match Memory.rangeFault s.i.toNat count with
  | some r => raise r s
  | none => go s

/-! ### The TIMER agent (R222) -/

/-- `decrementIfPositive` (R74). -/
def decrementIfPositive (t : Byte) : Byte := if t = 0#8 then 0#8 else t - 1#8

/-- One 60 Hz tick of the TIMER agent (R222). -/
def timerTick (s : State) : State := { s with dt := decrementIfPositive s.dt, st := decrementIfPositive s.st }

/-- A timer after `k` ticks (R223: it reaches 0 and stays there). -/
def drain (k : Nat) (t : Byte) : Byte := if t = 0#8 then 0#8 else BitVec.ofNat 8 (t.toNat - k)

/-- `k` ticks of the TIMER agent at once; Laws/Ops.lean proves that it is `timerTick` `k` times. -/
def timerTicks (k : Nat) (s : State) : State := { s with dt := drain k s.dt, st := drain k s.st }

/-- The k-th turn before which TIMER ticks fall, `gap j` turns without one passing before the j-th. There is always a next
one: this is the weak fairness of the TIMER agent (R249 (a)). -/
def tickTurn (gap : Nat → Nat) : Nat → Nat
  | 0 => gap 0
  | k + 1 => tickTurn gap k + 1 + gap (k + 1)

/-- How many TIMER ticks fall before turn `n`: at least one where `n` is a turn that has them, else none. -/
def scheduledTicks (gap extra : Nat → Nat) (n : Nat) : Nat :=
  if (List.range (n + 1)).any (fun k => tickTurn gap k == n) then extra n + 1 else 0

/-- How many TIMER ticks fall before turn `n` of this machine: a free number, positive infinitely often (R224, R249).
Laws/Schedule.lean proves that it is fair and that every fair schedule has this form. -/
def timerTicksBefore (n : Nat) : Nat := scheduledTicks Config.timerGap Config.timerExtra n

/-- What happens between two CPU ticks: a free number of TIMER ticks (R224, R249), also while `Halted` (R226). -/
def betweenTicks (s : State) : State := (timerTicks (timerTicksBefore s.turn) s).countTurn

/-! ### The parts of a CPU tick around the instruction -/

/-- Fetch (R122, R67): the byte at `PC` is the high half. -/
def fetch (s : State) : Except HaltReason Word :=
  if 4095 < s.pc.toNat then .error (.outOfBounds s.pc.toNat)
  else if s.pc.toNat = 4095 then .error (.outOfBounds 4096)
  else .ok (wordOfBytes (Memory.read s.mem s.pc.toNat) (Memory.read s.mem (s.pc.toNat + 1)))

/-- The end-of-tick check (R126): after a successful instruction, a `PC` of 4096 or more halts the machine, and
everything the instruction did stays done. -/
def endOfTick (s : State) : State :=
  match s.runState with
  | .halted _ => s
  | .running => if Config.memSize ≤ s.pc.toNat then raise (.outOfBounds s.pc.toNat) s else s

/-- The halt reason of a word that does not decode (R211). -/
def decodeFailure : DecodeError → HaltReason
  | .unknownOpcode w => .unknownOpcode w

end Sys2Proof.Machine
end

