-- ==== Sys2Proof/Machine/Operands.lean ====
section
/-!
DEFINITION. The operand forms (30_encoding.md rule R93): every immediate is unsigned and used unscaled; an address
operand is zero-extended to 16 bits; the field `x` of `Fx55` and `Fx65` is also a count.
-/
namespace Sys2Proof.Machine

/-- `nnn` "zero-extended to 16 bits" (R93). -/
def addrOperand (nnn : Addr) : Word := nnn.setWidth 16

/-- A register value used as a 16-bit number (R143, R193, R194). -/
def wideOperand (b : Byte) : Word := b.setWidth 16

/-- `VF` is `V[0xF]` (R21). -/
def vf : Nibble := 0xF#4

/-- "In `Fx55`/`Fx65` the field `x` is also a count: `x+1` registers are moved" (R93). -/
def moveCount (x : Nibble) : Nat := x.toNat + 1

/-- The address of a glyph: "`I <- V[x] * 5`, natural-number product, 0 to 1275" (R194). -/
def glyphAddr (b : Byte) : Word := BitVec.ofNat 16 (b.toNat * 5)

/-- The decimal digits of a value, hundreds first (R195). -/
def decimalDigits (b : Byte) : List Byte :=
  [BitVec.ofNat 8 (b.toNat / 100), BitVec.ofNat 8 (b.toNat / 10 % 10), BitVec.ofNat 8 (b.toNat % 10)]

end Sys2Proof.Machine
end

