-- ==== Sys2Proof/Machine/Flags.lean ====
section
/-!
DEFINITION. Every value an instruction writes to `VF` as a flag (10_state.md rule R21): each is exactly 0 or 1.
-/
namespace Sys2Proof.Machine

/-- 1 where the condition holds, else 0. -/
def flagValue (c : Bool) : Byte := if c then 1#8 else 0#8

/-- `8xy4`: "1 if the 9-bit sum exceeds 255, else 0" (R164). -/
def carryFlag (a b : Byte) : Byte := flagValue (decide (255 < a.toNat + b.toNat))

/-- `8xy5` and, with the operands exchanged, `8xy7`: 1 exactly when strictly greater (R165, R167, C5). -/
def greaterFlag (a b : Byte) : Byte := flagValue (decide (b.toNat < a.toNat))

/-- `8xy6`: bit 0, the bit shifted out to the right (R166). -/
def lowBitFlag (a : Byte) : Byte := a &&& 1#8

/-- `8xyE`: bit 7, the bit shifted out to the left (R168). -/
def highBitFlag (a : Byte) : Byte := (a >>> 7) &&& 1#8

end Sys2Proof.Machine
end

