-- ==== Sys2Proof/Machine/Alu.lean ====
section
/-!
DEFINITION. The register-to-register group (43_alu.md). "The statements of each rule run in the order written and
each reads the register file as the earlier statements left it" (R170).
-/
namespace Sys2Proof.Machine

/-- `V[x] <- f V[x] V[y]`, no flag (R160 to R163). -/
def aluPlain (f : Byte → Byte → Byte) (x y : Nibble) (s : State) : State :=
  (s.setReg x (f (s.reg x) (s.reg y))).next

/-- First `VF <- flag V[x] V[y]`, then `V[x] <- result V[x] V[y]`, reading the registers again after the flag is
written (R165 to R168, R170). -/
def aluFlagged (flag result : Byte → Byte → Byte) (x y : Nibble) (s : State) : State :=
  aluPlain result x y (s.setReg vf (flag (s.reg x) (s.reg y)))

/-- R160. -/
def execLdReg (x y : Nibble) (s : State) : Result := .next (aluPlain (fun _ b => b) x y s)

/-- R161. -/
def execOrReg (x y : Nibble) (s : State) : Result := .next (aluPlain (fun a b => a ||| b) x y s)

/-- R162. -/
def execAndReg (x y : Nibble) (s : State) : Result := .next (aluPlain (fun a b => a &&& b) x y s)

/-- R163. -/
def execXorReg (x y : Nibble) (s : State) : Result := .next (aluPlain (fun a b => a ^^^ b) x y s)

/-- R164: "both operands read first"; the flag is written, then the sum. -/
def execAddReg (x y : Nibble) (s : State) : Result :=
  .next ((s.setReg vf (carryFlag (s.reg x) (s.reg y))).setReg x (s.reg x + s.reg y)).next

/-- R165. -/
def execSubReg (x y : Nibble) (s : State) : Result := .next (aluFlagged greaterFlag (fun a b => a - b) x y s)

/-- R166: `V[x]` is shifted in place, `V[y]` is neither read nor written. -/
def execShr (x y : Nibble) (s : State) : Result :=
  .next (aluFlagged (fun a _ => lowBitFlag a) (fun a _ => a >>> 1) x y s)

/-- R167. -/
def execSubnReg (x y : Nibble) (s : State) : Result :=
  .next (aluFlagged (fun a b => greaterFlag b a) (fun a b => b - a) x y s)

/-- R168: `V[x]` is shifted in place, `V[y]` is neither read nor written. -/
def execShl (x y : Nibble) (s : State) : Result :=
  .next (aluFlagged (fun a _ => highBitFlag a) (fun a _ => a <<< 1) x y s)

end Sys2Proof.Machine
end

