-- ==== Sys2Proof/Machine/ControlFlow.lean ====
section
/-!
DEFINITION. Control transfer (41_control_flow.md): JP, CALL, RET, JP V0 and the four skips. In each, `PC` holds the
address `A` of the instruction itself (R25, R124).
-/
namespace Sys2Proof.Machine

/-- `PC <- A + 4` where the condition holds, else `PC <- A + 2` (R144 to R147). -/
def skipIf (c : Bool) (s : State) : State := s.setPc (s.pc + if c then 4#16 else 2#16)

/-- R140: `PC <- nnn`. -/
def execJp (nnn : Addr) (s : State) : Result := .next (s.setPc (addrOperand nnn))

/-- R141: the address of the CALL is pushed above the newest slot; the sixteenth nested call halts (R215). -/
def execCall (nnn : Addr) (s : State) : Result :=
  if s.sp = 15#4 then .next (raise .stackOverflow s)
  else .next (((s.setSp (s.sp + 1#4)).setStackSlot (s.sp + 1#4) s.pc).setPc (addrOperand nnn))

/-- R142: `PC <- Stack[SP] + 2`, then `SP <- SP - 1`; the slot is not cleared; an empty stack halts (R214). -/
def execRet (s : State) : Result :=
  if s.sp = 0#4 then .next (raise .stackUnderflow s)
  else .next ((s.setPc (s.stackSlot s.sp + 2#16)).setSp (s.sp - 1#4))

/-- R143: `PC <- nnn + V[0]`, whatever `nnn[11:8]` is. -/
def execJpV0 (nnn : Addr) (s : State) : Result := .next (s.setPc (addrOperand nnn + wideOperand (s.reg 0#4)))

/-- R144. -/
def execSeImm (x : Nibble) (kk : Byte) (s : State) : Result := .next (skipIf (s.reg x == kk) s)

/-- R145. -/
def execSneImm (x : Nibble) (kk : Byte) (s : State) : Result := .next (skipIf (s.reg x != kk) s)

/-- R146. -/
def execSeReg (x y : Nibble) (s : State) : Result := .next (skipIf (s.reg x == s.reg y) s)

/-- R147. -/
def execSneReg (x y : Nibble) (s : State) : Result := .next (skipIf (s.reg x != s.reg y) s)

end Sys2Proof.Machine
end

