-- ==== Sys2Proof/Machine/Graphics.lean ====
section
/-!
DEFINITION. The two display instructions (44_display.md rules R180, R181); the device is Machine/Display.lean.
-/
namespace Sys2Proof.Machine

/-- R180: `disp.clear()`. -/
def execCls (s : State) : Result := .next (s.setDisplay s.display.clear).next

/-- Draw the `n` bytes at `I` at `(V[x], V[y])`, both read before `VF` takes the collision (R181). -/
def drawSprite (x y n : Nibble) (s : State) : State :=
  let drawn := s.display.draw (s.reg x).toNat (s.reg y).toNat (Memory.readRange s.mem s.i.toNat n.toNat)
  ((s.setDisplay drawn.1).setReg vf (Display.collisionReply drawn.2)).next

/-- R181: the range is checked first; then nothing is drawn where it leaves memory. -/
def execDrw (x y n : Nibble) (s : State) : Result := .next (withRange n.toNat s (drawSprite x y n))

end Sys2Proof.Machine
end

