-- ==== Sys2Proof/Machine/Keys.lean ====
section
/-!
DEFINITION. The three key instructions (46_unimplemented_and_illegal.md rules R200 to R202): this hardware
recognises them and halts with `OpcodeNotImplemented` and the whole word, which the row's fields determine.
-/
namespace Sys2Proof.Machine

/-- R200: the machine does not wait; it halts. -/
def execLdVxK (x : Nibble) (s : State) : Result :=
  .next (raise (.opcodeNotImplemented (wordXKK 0xF#4 x 0x0A#8)) s)

/-- R201. -/
def execSkp (x : Nibble) (s : State) : Result :=
  .next (raise (.opcodeNotImplemented (wordXKK 0xE#4 x 0x9E#8)) s)

/-- R202: it does not behave as "no key is ever pressed". -/
def execSknp (x : Nibble) (s : State) : Result :=
  .next (raise (.opcodeNotImplemented (wordXKK 0xE#4 x 0xA1#8)) s)

end Sys2Proof.Machine
end

