-- ==== Sys2Proof/Machine/LoadAdd.lean ====
section
/-!
DEFINITION. Immediate loads, immediate add and random (42_load_add_immediate.md).
-/
namespace Sys2Proof.Machine

/-- R150: `V[x] <- kk`. -/
def execLdImm (x : Nibble) (kk : Byte) (s : State) : Result := .next (s.setReg x kk).next

/-- R151: `V[x] <- (V[x] + kk) mod 256`; `VF` is not written. -/
def execAddImm (x : Nibble) (kk : Byte) (s : State) : Result := .next (s.setReg x (s.reg x + kk)).next

/-- R152: `I <- nnn`. -/
def execLdI (nnn : Addr) (s : State) : Result := .next (s.setI (addrOperand nnn)).next

/-- R153: `V[x] <- r & kk`, where `r` is the next value of the `rand` port, a free value (log entry 2). -/
def execRnd (x : Nibble) (kk : Byte) (s : State) : Result :=
  .next ((s.countDraw).setReg x (Config.randByte s.draws &&& kk)).next

end Sys2Proof.Machine
end

