-- ==== Sys2Proof/Machine/Misc.lean ====
section
/-!
DEFINITION. Timer, index and memory-transfer instructions (45_misc_timer_memory.md).
-/
namespace Sys2Proof.Machine

/-- R190: `V[x] <- DT.get()`. -/
def execLdVxDt (x : Nibble) (s : State) : Result := .next (s.setReg x s.dt).next

/-- R191: `DT.set(V[x])`. -/
def execLdDtVx (x : Nibble) (s : State) : Result := .next (s.setDt (s.reg x)).next

/-- R192: `ST.set(V[x])`. -/
def execLdStVx (x : Nibble) (s : State) : Result := .next (s.setSt (s.reg x)).next

/-- R193: `I <- (I + V[x]) mod 65536`; `VF` is not written. -/
def execAddI (x : Nibble) (s : State) : Result := .next (s.setI (s.i + wideOperand (s.reg x))).next

/-- R194: `I <- V[x] * 5`, unmasked. -/
def execLdF (x : Nibble) (s : State) : Result := .next (s.setI (glyphAddr (s.reg x))).next

/-- Store bytes at `I` and above; `I` is unchanged (R195, R196). -/
def storeAtIndex (bytes : List Byte) (s : State) : State :=
  (s.setMem (Memory.writeRange s.mem s.i.toNat bytes)).next

/-- R195: the three decimal digits at `I`, `I+1`, `I+2`. -/
def execLdB (x : Nibble) (s : State) : Result := .next (withRange 3 s (storeAtIndex (decimalDigits (s.reg x))))

/-- R196: `V[0]` to `V[x]` at `I` to `I + x`. -/
def execStoreRegs (x : Nibble) (s : State) : Result :=
  .next (withRange (moveCount x) s (storeAtIndex (s.regsUpTo x)))

/-- R197: `V[0]` to `V[x]` from `I` to `I + x`; `I` is unchanged. -/
def execLoadRegs (x : Nibble) (s : State) : Result :=
  .next (withRange (moveCount x) s
    (fun s => (s.setRegsFrom 0 (Memory.readRange s.mem s.i.toNat (moveCount x))).next))

end Sys2Proof.Machine
end

