-- ==== Sys2Proof/Machine/Tick.lean ====
section
/-!
DEFINITION. One CPU tick as one function (40_execution_loop.md rule R127): fetch, decode, execute, end-of-tick
check, the first failure in this order ending it (60_exceptions.md rule R218).
-/
namespace Sys2Proof.Machine

/-- The end-of-tick check after whatever the instruction answered (R126). -/
def checked : Result → Result
  | .next s => .next (endOfTick s)
  | .fault r => .fault r
  | .refused r => .refused r

/-- Decode and execute a fetched word (R123, R124). -/
def runWord (w : Word) (s : State) : Result :=
  match decode w with
  | .error e => .next (raise (decodeFailure e) s)
  | .ok i => checked (exec i s)

/-- R127. In `Halted(reason)` the CPU agent has no step (R121): the state stays. -/
def cpuTick (s : State) : Result :=
  match s.runState with
  | .halted _ => .next s
  | .running =>
    match fetch s with
    | .error r => .next (raise r s)
    | .ok w => runWord w s

/-- Where `withFetchWord` puts the word: at `PC`, or at the program origin where no instruction fits at `PC`. -/
def fetchPlace (s : State) : Word := if s.pc.toNat < 4095 then s.pc else BitVec.ofNat 16 Config.programOrigin

/-- `s` with a word placed where the next tick fetches, ready to run it: the word's two bytes at `PC`, and the
machine `Running`. It stands for the host's program load (log entry 8). -/
def placeFetchWord (s : State) (w : Word) : State :=
  { s with
    pc := fetchPlace s
    runState := .running
    mem := Memory.writeRange s.mem (fetchPlace s).toNat (bytesOfWord w) }

end Sys2Proof.Machine
end

