-- ==== Sys2Proof/Machine/Step.lean ====
section
/-!
DEFINITION. One step of the whole machine: the TIMER ticks that fall before this turn, then the CPU's tick
(70_reset_and_hazards.md rule R249; log entry 3).
-/
namespace Sys2Proof.Machine

def step (s : State) : Host.Outcome State Fault Refusal := cpuTick (betweenTicks s)

def State.withFetchWord (s : State) (nbits w : Nat) : State := placeFetchWord s (tableWord nbits w)

end Sys2Proof.Machine
end

