-- ==== Sys2Proof/Machine/HostPort.lean ====
section
/-!
DEFINITION. What the HOST does to the machine (00_scope.md rule R7, 70_reset_and_hazards.md rules R240 to R244): it
creates an instance, loads one program image before the first tick, and tears the instance down.
-/
namespace Sys2Proof.Machine

/-- `load(origin, bytes)` (R63): the bytes go to `origin` and above, or the load fails and nothing is written. -/
def load (origin : Nat) (bytes : List Byte) (s : State) : Result :=
  if origin + bytes.length ≤ Config.memSize then .next (s.setMem (Memory.writeRange s.mem origin bytes))
  else .fault (.loadOutOfBounds (max origin Config.memSize))

/-- Where an instance is in its life (R36, R241, R244). -/
inductive Lifecycle where
  /-- No instance: before `reset`, or after `teardown`. -/
  | absent
  /-- Reset, nothing loaded. -/
  | created (s : State)
  /-- The image did not fit: "the machine never runs" (R242). -/
  | loadFailed (addr : Nat)
  /-- Loaded: the CPU and TIMER agents take their ticks. -/
  | started (s : State)
  deriving DecidableEq, Repr

/-- The host's ports (R7). -/
inductive HostAction where
  | reset
  | load (image : List Byte)
  | teardown
  deriving DecidableEq, Repr

/-- What a host action does; none where the host does not take that action: it loads once, before the first tick,
at `0x200`, and its only action on a started machine is `teardown` (R242, R244). -/
def hostAct : HostAction → Lifecycle → Option Lifecycle
  | .reset, .absent => some (.created State.reset)
  | .load image, .created s =>
    match load Config.programOrigin image s with
    | .next t => some (.started t)
    | .fault (.loadOutOfBounds a) => some (.loadFailed a)
    | .refused _ => none
  | .teardown, .created _ => some .absent
  | .teardown, .loadFailed _ => some .absent
  | .teardown, .started _ => some .absent
  | _, _ => none

/-- A turn of the two agents: only a started instance takes one (R227, R244). -/
def Lifecycle.turn : Lifecycle → Lifecycle
  | .started s =>
    match step s with
    | .next t => .started t
    | .fault _ => .started s
    | .refused _ => .started s
  | .absent => .absent
  | .created s => .created s
  | .loadFailed a => .loadFailed a

end Sys2Proof.Machine
end

