-- ==== Sys2Proof/Safety.lean ====
section
/-!
DEFINITION. The terms the statements use: the invariants of 10_state.md rule R35, what an instruction keeps, which
registers it writes and where it leaves `PC`. A safe run is one whose states meet `MachineInv`; a run goes on while it is
`Running`, and ends at `Halted(reason)` (R130).
-/
namespace Sys2Proof.Machine

/-! ### The invariant -/

/-- The invariants of every reachable state (R35), with the canonical forms of memory and framebuffer. -/
structure MachineInv (s : State) : Prop where
  memWf : Memory.wf s.mem = true
  displayWf : s.display.wf = true
  /-- `Stack[0] = 0`. -/
  slotZero : s.stackSlot 0#4 = 0#16
  /-- `Stack[k] <= 4094` for `1 <= k <= SP`. -/
  slotBound : ∀ k : Nibble, 1 ≤ k.toNat → k.toNat ≤ s.sp.toNat → (s.stackSlot k).toNat ≤ 4094
  /-- `RunState = Running` implies `PC <= 4095`. -/
  pcRunning : s.runState = .running → s.pc.toNat ≤ 4095
  /-- `PC <= 0x10FE` always. -/
  pcBound : s.pc.toNat ≤ 0x10FE

/-! ### What stays unchanged -/

/-- Every general register outside the list is unchanged. -/
def KeepsRegsBut (dest : List Nibble) (s t : State) : Prop := ∀ r : Nibble, r ∉ dest → t.reg r = s.reg r

/-- Every byte of memory reads as before. -/
def KeepsMem (s t : State) : Prop := ∀ a : Nat, Memory.read t.mem a = Memory.read s.mem a

/-- `SP` and every stack slot are unchanged. -/
def KeepsStack (s t : State) : Prop := t.sp = s.sp ∧ ∀ k : Nibble, t.stackSlot k = s.stackSlot k

/-- `DT` and `ST` are unchanged. -/
def KeepsTimers (s t : State) : Prop := t.dt = s.dt ∧ t.st = s.st

/-- The model's two counters are unchanged. -/
def KeepsCounters (s t : State) : Prop := t.draws = s.draws ∧ t.turn = s.turn

/-- Nothing changes but `PC` and the general registers in the list. -/
def OnlyRegs (dest : List Nibble) (s t : State) : Prop :=
  KeepsRegsBut dest s t ∧ t.i = s.i ∧ KeepsTimers s t ∧ KeepsStack s t ∧ KeepsMem s t ∧ t.display = s.display ∧
    t.runState = s.runState ∧ KeepsCounters s t

/-- The machine halts with the reason and nothing else changes: `RunState <- Halted(reason)` (R219). -/
def HaltsWith (r : HaltReason) (s t : State) : Prop :=
  t.runState = .halted r ∧ t.pc = s.pc ∧ KeepsRegsBut [] s t ∧ t.i = s.i ∧ KeepsTimers s t ∧ KeepsStack s t ∧
    KeepsMem s t ∧ t.display = s.display ∧ KeepsCounters s t

/-! ### Which registers an instruction may write, and where it leaves `PC` -/

/-- Whether the instruction may write `V[r]`: its destination, and `VF` for the instructions of R21. -/
def writesReg (r : Nibble) : Instr → Bool
  | .cls | .ret | .jp _ | .call _ | .jpV0 _ => false
  | .seImm _ _ | .sneImm _ _ | .seReg _ _ | .sneReg _ _ => false
  | .ldImm x _ | .addImm x _ | .rnd x _ => r == x
  | .ldReg x _ | .orReg x _ | .andReg x _ | .xorReg x _ => r == x
  | .addReg x _ | .subReg x _ | .shr x _ | .subnReg x _ | .shl x _ => r == x || r == vf
  | .ldI _ | .addI _ | .ldF _ => false
  | .drw _ _ _ => r == vf
  | .skp _ | .sknp _ | .ldVxK _ => false
  | .ldVxDt x => r == x
  | .ldDtVx _ | .ldStVx _ => false
  | .ldB _ | .storeRegs _ => false
  | .loadRegs x => decide (r.toNat ≤ x.toNat)

/-- `PC` at the end of a tick that does not halt, `A` being `PC` (R125). -/
def pcAfter (s : State) : Instr → Nat
  | .jp nnn => nnn.toNat
  | .call nnn => nnn.toNat
  | .ret => (s.stackSlot s.sp).toNat + 2
  | .jpV0 nnn => nnn.toNat + (s.reg 0#4).toNat
  | .seImm x kk => if s.reg x = kk then s.pc.toNat + 4 else s.pc.toNat + 2
  | .sneImm x kk => if s.reg x = kk then s.pc.toNat + 2 else s.pc.toNat + 4
  | .seReg x y => if s.reg x = s.reg y then s.pc.toNat + 4 else s.pc.toNat + 2
  | .sneReg x y => if s.reg x = s.reg y then s.pc.toNat + 2 else s.pc.toNat + 4
  | .cls | .ldImm _ _ | .addImm _ _ | .ldReg _ _ | .orReg _ _ | .andReg _ _ | .xorReg _ _ => s.pc.toNat + 2
  | .addReg _ _ | .subReg _ _ | .shr _ _ | .subnReg _ _ | .shl _ _ | .ldI _ | .rnd _ _ | .drw _ _ _ => s.pc.toNat + 2
  | .skp _ | .sknp _ | .ldVxDt _ | .ldVxK _ | .ldDtVx _ | .ldStVx _ | .addI _ | .ldF _ | .ldB _ => s.pc.toNat + 2
  | .storeRegs _ | .loadRegs _ => s.pc.toNat + 2

/-! ### Runs -/

/-- A run: each state is followed by the one its step answers (R249). -/
def IsRun (run : Nat → State) : Prop := ∀ n : Nat, step (run n) = .next (run (n + 1))

/-- The next step runs the instruction `i`: the machine is running, and `i` is what the fetched word decodes to. -/
def AboutToRun (i : Instr) (s : State) : Prop := s.runState = .running ∧ ∃ w, fetch s = .ok w ∧ decode w = .ok i

/-! ### What a sprite covers -/

/-- A set bit of the `n` sprite bytes at `I` lands on `FB[row][col]` when it is drawn at `(V[x], V[y])` (R184). -/
def SpriteCovers (s : State) (x y n : Nibble) (row col : Nat) : Prop :=
  ∃ r c : Nat, r < n.toNat ∧ c < 8 ∧ Display.spriteBit (Memory.read s.mem (s.i.toNat + r)) c = true ∧
    row = ((s.reg y).toNat % s.display.height + r) % s.display.height ∧
    col = ((s.reg x).toNat % s.display.width + c) % s.display.width

end Sys2Proof.Machine
end

