-- ==== Sys2Proof/Certificates/Slice0/Obligations.lean ====
section
/-!
DEFINITION. The statements for the provers. Each formalises what the spec says an instruction or the machine does.
A decision of the spec's own (D<n> of spec/92_eei_decisions.md) or of this model (a log entry) that a statement rests
on is named in its docstring.
-/
open Sys2Proof Sys2Proof.Machine

/-! ### Encoding -/

/-- Decoding the canonical word of any instruction gives that instruction back, with every operand (R94, R95). For SKP, SKNP
and LD Vx, K it is the model's choice (log entry 9): R94 answers `OpcodeNotImplemented` for their words, and here they decode
to their rows. -/
def Obligations.DecodeInvertsEncode : Prop :=
  ∀ i : Instr, decode (encode i) = .ok i

/-- Every word that decodes is, but for the ignored bits 11:8 of CLS and RET, the encoding of what it decodes to
(R94, R96; decision D10, log entry 15, for the ignored bits). That the three key words decode at all is the model's choice
(log entry 9). -/
def Obligations.EncodeInvertsDecode : Prop :=
  ∀ (w : Word) (i : Instr), decode w = .ok i → encode i = canonicalWord w

/-- R95: a word decodes to the instruction of the row it selects, and no word selects two rows. Two clauses rest on more
than R95. A word that selects no row does not decode (R94, and for group E decision D11); bits 11:8 of CLS and RET are
ignored (decision D10; log entry 15 for both). That the three key words decode to their rows, where R94 answers
`OpcodeNotImplemented`, is the model's choice (log entry 9). -/
def Obligations.DecodeFollowsOpcodeMap : Prop :=
  (∀ w : Word, ∀ row ∈ opcodeMap, row.selects w = true → decode w = .ok (row.instr w)) ∧
  (∀ w : Word, (∀ row ∈ opcodeMap, row.selects w = false) → decode w = .error (.unknownOpcode w)) ∧
  (∀ w : Word, ∀ row ∈ opcodeMap, ∀ other ∈ opcodeMap,
    row.selects w = true → other.selects w = true → row.pattern = other.pattern)

/-- Words written out from R94 and the vectors of 95_test_vectors.md section 2.1, one or more of each family. That
`0xE19E` and `0xF10A` decode to their rows, where section 2.1 has `OpcodeNotImplemented`, is the model's choice (log entry
9); `0x0FEE` rests on decision D10 and `0xE100` on D11 (log entry 15). -/
def Obligations.SampleWordsDecode : Prop :=
  decode 0x00E0#16 = .ok .cls ∧ decode 0x0FEE#16 = .ok .ret ∧ decode 0x1ABC#16 = .ok (.jp 0xABC#12) ∧
  decode 0x3A7F#16 = .ok (.seImm 0xA#4 0x7F#8) ∧ decode 0x8AB7#16 = .ok (.subnReg 0xA#4 0xB#4) ∧
  decode 0x8ABE#16 = .ok (.shl 0xA#4 0xB#4) ∧ decode 0xA123#16 = .ok (.ldI 0x123#12) ∧
  decode 0xC30F#16 = .ok (.rnd 0x3#4 0x0F#8) ∧ decode 0xD125#16 = .ok (.drw 0x1#4 0x2#4 0x5#4) ∧
  decode 0xE19E#16 = .ok (.skp 0x1#4) ∧ decode 0xF10A#16 = .ok (.ldVxK 0x1#4) ∧
  decode 0xF155#16 = .ok (.storeRegs 0x1#4) ∧ decode 0x0000#16 = .error (.unknownOpcode 0x0000#16) ∧
  decode 0x5AB1#16 = .error (.unknownOpcode 0x5AB1#16) ∧ decode 0xE100#16 = .error (.unknownOpcode 0xE100#16)

/-- R103 (decision D14, log entry 23): the line written for an instruction stands for it, assembles to the two bytes of its
word (high byte first, decision D1, log entry 7), and the decoder reads the instruction back from those bytes. Two clauses
are the model's choice: the line of a shift names both operands, so that the ignored `y` is kept (log entry 23, DESIGN
CHOICE), and the words of SKP, SKNP and LD Vx, K decode to their rows, where R94 answers `OpcodeNotImplemented` (log
entry 9). -/
def Obligations.AssembledLineDecodesBack : Prop :=
  ∀ (i : Instr) (rest : List Byte),
    i.line.instr = some i ∧
    assembleLine i.line = some (bytesOfWord (encode i)) ∧
    decodeBytes (bytesOfWord (encode i) ++ rest) = .ok (i, rest)

/-! ### The step -/

/-- A running machine whose bytes at `PC` decode to `i` runs exactly `i`: a step is the TIMER ticks of this turn, then
`exec i`, then the end-of-tick check of R126 (R127; decisions D1 and D6, log entries 7 and 12). That a step begins with the
turn's TIMER ticks is the model's choice (log entry 3), and that a failure is a next state is log entry 1. -/
def Obligations.StepRunsDecodedInstruction : Prop :=
  ∀ (s t : State) (i : Instr),
    s.runState = .running → s.pc.toNat ≤ 4094 →
    decode (wordOfBytes (Memory.read s.mem s.pc.toNat) (Memory.read s.mem (s.pc.toNat + 1))) = .ok i →
    exec i (betweenTicks s) = .next t →
    step s = .next
      (if t.runState = .running ∧ 4096 ≤ t.pc.toNat then { t with runState := .halted (.outOfBounds t.pc.toNat) }
       else t)

/-- What happens between two CPU ticks is a free number of 60 Hz ticks (R222, R224, R249 with decision D17): nothing but the
timers and the model's turn counter changes. The counter and the form of the free number are the model's (log entry 3). -/
def Obligations.BetweenTicksIteratesTimerTick : Prop :=
  ∀ s : State,
    betweenTicks s = { timerTick^[timerTicksBefore s.turn] s with turn := s.turn + 1 }

/-- Every state has a next state, whatever its memory holds. That every failure of R219 is a next state, and that `step`
answers one for a halted machine too, where the CPU has no step (R121), is the model's choice (log entry 1, DEDUCED). -/
def Obligations.EveryStepAnswersNext : Prop :=
  (∀ (i : Instr) (s : State), ∃ t, exec i s = .next t) ∧ ∀ s : State, ∃ t, step s = .next t

/-- A halted machine takes no CPU tick: its timers may go on counting down, all other state of the hardware is frozen
(R121, R226; decision D19, log entry 18). That such a step is the TIMER ticks of a turn is log entry 3. -/
def Obligations.HaltedMachineOnlyCountsDown : Prop :=
  ∀ (s : State) (r : HaltReason), s.runState = .halted r →
    ∃ (k : Nat) (t : State), step s = .next t ∧
      t.dt.toNat = s.dt.toNat - k ∧ t.st.toNat = s.st.toNat - k ∧
      t.runState = s.runState ∧ t.pc = s.pc ∧ KeepsRegsBut [] s t ∧ t.i = s.i ∧ KeepsStack s t ∧ t.mem = s.mem ∧
      t.display = s.display ∧ t.draws = s.draws

/-- R122 (payload by decision D7): a fetch inside memory takes the byte at `PC` as the high half (R67, decision D1); at
`PC = 4095` the step halts with `OutOfBounds(4096)` and above it with `OutOfBounds(PC)`, changing nothing else (log entries 7
and 13). That the step begins with TIMER ticks is the model's choice (log entry 3). -/
def Obligations.FetchReadsHighByteFirstOrHalts : Prop :=
  (∀ s : State, s.pc.toNat ≤ 4094 → ∃ w : Word, fetch s = .ok w ∧
    w.toNat = (Memory.read s.mem s.pc.toNat).toNat * 256 + (Memory.read s.mem (s.pc.toNat + 1)).toNat) ∧
  (∀ s : State, s.runState = .running → s.pc.toNat = 4095 →
    ∃ t, step s = .next t ∧ HaltsWith (.outOfBounds 4096) (betweenTicks s) t) ∧
  (∀ s : State, s.runState = .running → 4095 < s.pc.toNat →
    ∃ t, step s = .next t ∧ HaltsWith (.outOfBounds s.pc.toNat) (betweenTicks s) t)

/-- R123: a fetched word that does not decode halts the machine with `UnknownOpcode(w)`, one of the three key
instructions with `OpcodeNotImplemented(w)`; nothing else changes. The word is assembled high byte first (decision D1, log
entry 7, PRESUMED). That the step begins with TIMER ticks (log entry 3) and that a key word decodes to its row, whose
meaning raises the failure (log entry 9), are the model's choices. -/
def Obligations.WordWithoutMeaningHalts : Prop :=
  ∀ (s : State) (w : Word),
    s.runState = .running → s.pc.toNat ≤ 4094 →
    w = wordOfBytes (Memory.read s.mem s.pc.toNat) (Memory.read s.mem (s.pc.toNat + 1)) →
    (∀ e, decode w = .error e → ∃ t, step s = .next t ∧ HaltsWith (.unknownOpcode w) (betweenTicks s) t) ∧
    (∀ i, decode w = .ok i → i.isKeyInstr = true →
      ∃ t, step s = .next t ∧ HaltsWith (.opcodeNotImplemented w) (betweenTicks s) t)

/-- R219 (decision D8, log entry 13): every failure but the end-of-tick check is precise, the halted state being the state
before the tick; the end-of-tick check halts in the state the instruction left, with `PC >= 4096` (decision D6, log entry
12). The word is assembled high byte first (decision D1, log entry 7); `betweenTicks`, the TIMER ticks before the tick, is
the model's choice (log entry 3). -/
def Obligations.FailuresArePrecise : Prop :=
  ∀ (s t : State) (r : HaltReason),
    s.runState = .running → step s = .next t → t.runState = .halted r →
    HaltsWith r (betweenTicks s) t ∨
    ∃ (i : Instr) (u : State),
      decode (wordOfBytes (Memory.read s.mem s.pc.toNat) (Memory.read s.mem (s.pc.toNat + 1))) = .ok i ∧
      exec i (betweenTicks s) = .next u ∧ u.runState = .running ∧ 4096 ≤ u.pc.toNat ∧
      r = .outOfBounds u.pc.toNat ∧ HaltsWith r u t

/-- Which instruction can halt the machine, when, and with which payload (R210 to R215; decisions D4, D7, D8, D23, log
entries 10 and 13). That the meaning of a key instruction, and not decode, raises `OpcodeNotImplemented` is the model's
choice (log entry 9). -/
def Obligations.HaltReasonsNameTheirCause : Prop :=
  ∀ (i : Instr) (s t : State) (r : HaltReason),
    s.runState = .running → exec i s = .next t → t.runState = .halted r →
    (r = .stackUnderflow ∧ i = .ret ∧ s.sp = 0#4) ∨
    (r = .stackOverflow ∧ (∃ nnn, i = .call nnn) ∧ s.sp = 15#4) ∨
    (r = .opcodeNotImplemented (encode i) ∧ i.isKeyInstr = true) ∨
    (r = .outOfBounds (max s.i.toNat 4096) ∧
      ((∃ x y n, i = .drw x y n ∧ 4096 < s.i.toNat + n.toNat) ∨ (∃ x, i = .ldB x ∧ 4095 < s.i.toNat + 2) ∨
        (∃ x, (i = .storeRegs x ∨ i = .loadRegs x) ∧ 4095 < s.i.toNat + x.toNat)))

/-! ### The TIMER agent -/

/-- R222 (decision D18: both decrements are one step): a tick lowers a non-zero timer by one, leaves 0 alone, and changes
nothing else. -/
def Obligations.TimerTickDecrements : Prop :=
  ∀ s : State,
    (timerTick s).dt.toNat = s.dt.toNat - 1 ∧ (timerTick s).st.toNat = s.st.toNat - 1 ∧
    (timerTick s).pc = s.pc ∧ (timerTick s).runState = s.runState ∧ KeepsRegsBut [] s (timerTick s) ∧
    (timerTick s).i = s.i ∧ KeepsStack s (timerTick s) ∧ (timerTick s).mem = s.mem ∧
    (timerTick s).display = s.display ∧ KeepsCounters s (timerTick s)

/-- R223: after `k` ticks a timer is lower by `k` and never below 0; one that holds `n` reaches 0 after exactly `n`. -/
def Obligations.TimerReachesZeroAfterItsTicks : Prop :=
  ∀ (s : State) (k : Nat),
    (timerTick^[k] s).dt.toNat = s.dt.toNat - k ∧ (timerTick^[k] s).st.toNat = s.st.toNat - k ∧
    ((timerTick^[k] s).dt = 0#8 ↔ s.dt.toNat ≤ k) ∧ ((timerTick^[k] s).st = 0#8 ↔ s.st.toNat ≤ k)

/-- No instruction but `Fx15` writes `DT`, none but `Fx18` writes `ST`, and each writes `V[x]` (R23, R24, R35). -/
def Obligations.TimersWrittenOnlyByTheirLoads : Prop :=
  ∀ (i : Instr) (s t : State), exec i s = .next t →
    (t.dt = s.dt ∨ ∃ x, i = .ldDtVx x ∧ t.dt = s.reg x) ∧ (t.st = s.st ∨ ∃ x, i = .ldStVx x ∧ t.st = s.reg x)

/-! ### Invariants and reset -/

/-- Every step keeps the invariants of R35 and the canonical forms of memory and framebuffer, from every state that meets
them, reached by a run or not. -/
def Obligations.StepKeepsInv : Prop :=
  ∀ s t : State, MachineInv s → step s = .next t → MachineInv t

/-- The machine right after reset meets the invariants. -/
def Obligations.ResetMeetsInv : Prop := MachineInv State.reset

/-- The reset values of R31: everything zero, `PC = 0x200`, the font, `Running`, a clear display (decision D24). The font's
bytes are the spec's default (log entry 4); nothing is said here of the display's size. -/
def Obligations.ResetValues : Prop :=
  (∀ r : Nibble, State.reset.reg r = 0#8) ∧ State.reset.i = 0#16 ∧ State.reset.dt = 0#8 ∧ State.reset.st = 0#8 ∧
  State.reset.pc = 0x200#16 ∧ State.reset.sp = 0#4 ∧ (∀ k : Nibble, State.reset.stackSlot k = 0#16) ∧
  (∀ a : Nat, a < 80 → some (Memory.read State.reset.mem a) = font[a]?) ∧
  (∀ a : Nat, 80 ≤ a → Memory.read State.reset.mem a = 0#8) ∧
  State.reset.runState = .running ∧ (∀ row col : Nat, State.reset.display.pixel row col = false)

/-! ### What can change what -/

/-- Only CALL raises `SP` and only RET lowers it, each by one; only CALL writes a stack slot, the one above the newest, with
its own address; so slot 0 is never written (R26, R27; decision D3). -/
def Obligations.StackChangesOnlyByCallAndRet : Prop :=
  ∀ (i : Instr) (s t : State), exec i s = .next t →
    (KeepsStack s t) ∨
    (∃ nnn, i = .call nnn ∧ t.sp.toNat = s.sp.toNat + 1 ∧ t.stackSlot t.sp = s.pc ∧
      ∀ k : Nibble, k ≠ t.sp → t.stackSlot k = s.stackSlot k) ∨
    (i = .ret ∧ t.sp.toNat + 1 = s.sp.toNat ∧ ∀ k : Nibble, t.stackSlot k = s.stackSlot k)

/-- Only `Fx33` and `Fx55` change memory, and only the bytes of their own range (R60, R70). -/
def Obligations.MemoryChangesOnlyByStores : Prop :=
  ∀ (i : Instr) (s t : State) (a : Nat), exec i s = .next t → Memory.read t.mem a ≠ Memory.read s.mem a →
    (∃ x, i = .ldB x ∧ s.i.toNat ≤ a ∧ a ≤ s.i.toNat + 2) ∨
    (∃ x, i = .storeRegs x ∧ s.i.toNat ≤ a ∧ a ≤ s.i.toNat + x.toNat)

/-- Each instruction writes its destination register alone, and `VF` only where R21 lists it (decision D29: a flag effect
that is not listed does not exist). -/
def Obligations.RegistersChangeOnlyAsListed : Prop :=
  ∀ (i : Instr) (s t : State) (r : Nibble), exec i s = .next t → writesReg r i = false → t.reg r = s.reg r

/-- Only `Annn`, `Fx1E` and `Fx29` write `I` (R22), and only `Fx1E` can take it above 4095 (R35); only CLS and DRW change
the display (R34), and its size never changes. -/
def Obligations.IndexAndDisplayWriters : Prop :=
  ∀ (i : Instr) (s t : State), exec i s = .next t →
    (t.i = s.i ∨ (∃ nnn, i = .ldI nnn) ∨ (∃ x, i = .addI x) ∨ (∃ x, i = .ldF x)) ∧
    (s.i.toNat ≤ 4095 → 4095 < t.i.toNat → ∃ x, i = .addI x) ∧
    (t.display = s.display ∨ i = .cls ∨ ∃ x y n, i = .drw x y n) ∧
    t.display.width = s.display.width ∧ t.display.height = s.display.height

/-- No instruction reads `ST` (R24): with another `ST` the result is the same but for `ST` itself. It compares two runs, and
takes the draw of `RND` to be the same in both: both states hold one value of the model's counter `draws` (log entry 2),
where the hardware's draws are independent (R153). -/
def Obligations.SoundTimerIsNeverRead : Prop :=
  ∀ (i : Instr) (s t : State) (b : Byte), exec i s = .next t → ∃ c : Byte, exec i (s.setSt b) = .next (t.setSt c)

/-- R125: where each instruction that does not halt leaves `PC`. In a state that meets the invariants no sum wraps. -/
def Obligations.PcAfterInstruction : Prop :=
  ∀ (i : Instr) (s t : State), MachineInv s → s.runState = .running →
    exec i s = .next t → t.runState = .running → t.pc.toNat = pcAfter s i

/-! ### Control transfer -/

/-- R140. -/
def Obligations.JumpSetsPc : Prop :=
  ∀ (nnn : Addr) (s : State), ∃ t, exec (.jp nnn) s = .next t ∧ t.pc.toNat = nnn.toNat ∧ OnlyRegs [] s t

/-- R141 (decision D4: the sixteenth nested call halts): CALL pushes its own address above the newest slot and jumps. -/
def Obligations.CallPushesItsOwnAddress : Prop :=
  ∀ (nnn : Addr) (s : State),
    (s.sp ≠ 15#4 → ∃ t, exec (.call nnn) s = .next t ∧ t.pc.toNat = nnn.toNat ∧ t.sp.toNat = s.sp.toNat + 1 ∧
      t.stackSlot t.sp = s.pc ∧ (∀ k : Nibble, k ≠ t.sp → t.stackSlot k = s.stackSlot k) ∧
      KeepsRegsBut [] s t ∧ t.i = s.i ∧ KeepsTimers s t ∧ KeepsMem s t ∧ t.display = s.display ∧
      t.runState = s.runState ∧ KeepsCounters s t) ∧
    (s.sp = 15#4 → ∃ t, exec (.call nnn) s = .next t ∧ HaltsWith .stackOverflow s t)

/-- R142 (decision D5): RET lands two past the address in the newest slot, lowers `SP`, and does not clear the slot; with an
empty stack it halts. The slot holds at most 4094 in every state that meets `MachineInv`, so the sum is exact there. -/
def Obligations.RetReturnsPastTheCall : Prop :=
  ∀ s : State,
    (s.sp ≠ 0#4 → ∃ t, exec .ret s = .next t ∧ t.pc = s.stackSlot s.sp + 2#16 ∧ t.sp.toNat + 1 = s.sp.toNat ∧
      (∀ k : Nibble, t.stackSlot k = s.stackSlot k) ∧
      KeepsRegsBut [] s t ∧ t.i = s.i ∧ KeepsTimers s t ∧ KeepsMem s t ∧ t.display = s.display ∧
      t.runState = s.runState ∧ KeepsCounters s t) ∧
    (s.sp = 0#4 → ∃ t, exec .ret s = .next t ∧ HaltsWith .stackUnderflow s t)

/-- CALL then RET: `PC` ends two past the CALL, `SP` as before (R142's property; decision D5). -/
def Obligations.CallThenRetComesBack : Prop :=
  ∀ (nnn : Addr) (s : State), s.sp ≠ 15#4 → s.pc.toNat ≤ 4094 →
    ∃ t u, exec (.call nnn) s = .next t ∧ exec .ret t = .next u ∧ u.pc.toNat = s.pc.toNat + 2 ∧ u.sp = s.sp ∧
      KeepsRegsBut [] s u ∧ KeepsMem s u

/-- R143: the sum of `nnn` and `V[0]`, never reduced. -/
def Obligations.JumpV0AddsV0 : Prop :=
  ∀ (nnn : Addr) (s : State), ∃ t, exec (.jpV0 nnn) s = .next t ∧
    t.pc.toNat = nnn.toNat + (s.reg 0#4).toNat ∧ OnlyRegs [] s t

/-- R144 to R147: each skip moves `PC` by 4 where its condition holds and by 2 where it does not, and changes nothing
else. -/
def Obligations.SkipsMoveFourOrTwo : Prop :=
  (∀ (x : Nibble) (kk : Byte) (s : State), ∃ t, exec (.seImm x kk) s = .next t ∧ OnlyRegs [] s t ∧
    (s.reg x = kk → t.pc = s.pc + 4#16) ∧ (s.reg x ≠ kk → t.pc = s.pc + 2#16)) ∧
  (∀ (x : Nibble) (kk : Byte) (s : State), ∃ t, exec (.sneImm x kk) s = .next t ∧ OnlyRegs [] s t ∧
    (s.reg x ≠ kk → t.pc = s.pc + 4#16) ∧ (s.reg x = kk → t.pc = s.pc + 2#16)) ∧
  (∀ (x y : Nibble) (s : State), ∃ t, exec (.seReg x y) s = .next t ∧ OnlyRegs [] s t ∧
    (s.reg x = s.reg y → t.pc = s.pc + 4#16) ∧ (s.reg x ≠ s.reg y → t.pc = s.pc + 2#16)) ∧
  (∀ (x y : Nibble) (s : State), ∃ t, exec (.sneReg x y) s = .next t ∧ OnlyRegs [] s t ∧
    (s.reg x ≠ s.reg y → t.pc = s.pc + 4#16) ∧ (s.reg x = s.reg y → t.pc = s.pc + 2#16))

/-! ### Immediate loads, immediate add, random -/

/-- R150: with `x = 0xF` a plain write of `VF`. -/
def Obligations.LoadImmediateWritesRegister : Prop :=
  ∀ (x : Nibble) (kk : Byte) (s : State), ∃ t, exec (.ldImm x kk) s = .next t ∧
    t.reg x = kk ∧ t.pc = s.pc + 2#16 ∧ OnlyRegs [x] s t

/-- R151 (decision D29: no carry is kept): the sum mod 256. -/
def Obligations.AddImmediateWraps : Prop :=
  ∀ (x : Nibble) (kk : Byte) (s : State), ∃ t, exec (.addImm x kk) s = .next t ∧
    (t.reg x).toNat = ((s.reg x).toNat + kk.toNat) % 256 ∧ t.pc = s.pc + 2#16 ∧ OnlyRegs [x] s t

/-- R152: `I` receives `nnn` zero-extended. -/
def Obligations.LoadIndexZeroExtends : Prop :=
  ∀ (nnn : Addr) (s : State), ∃ t, exec (.ldI nnn) s = .next t ∧
    t.i.toNat = nnn.toNat ∧ t.pc = s.pc + 2#16 ∧
    KeepsRegsBut [] s t ∧ KeepsTimers s t ∧ KeepsStack s t ∧ KeepsMem s t ∧ t.display = s.display ∧
    t.runState = s.runState ∧ KeepsCounters s t

/-- R153 (decision D16; the draw is the free value of log entry 2, whatever it is): the register receives the draw masked
with `kk`, so it has zeros wherever `kk` has and is at most `kk`. -/
def Obligations.RandomIsMasked : Prop :=
  ∀ (x : Nibble) (kk : Byte) (s : State), ∃ t, exec (.rnd x kk) s = .next t ∧
    t.reg x = Config.randByte s.draws &&& kk ∧ t.reg x &&& ~~~kk = 0#8 ∧ (t.reg x).toNat ≤ kk.toNat ∧
    t.draws = s.draws + 1 ∧ t.turn = s.turn ∧ t.pc = s.pc + 2#16 ∧
    KeepsRegsBut [x] s t ∧ t.i = s.i ∧ KeepsTimers s t ∧ KeepsStack s t ∧ KeepsMem s t ∧ t.display = s.display ∧
    t.runState = s.runState

/-! ### The ALU group -/

/-- R160 to R163 (decision D29: `VF` is not reset): copy, or, and, exclusive or, bit by bit. -/
def Obligations.CopyAndLogicResults : Prop :=
  ∀ (x y : Nibble) (s : State),
    (∃ t, exec (.ldReg x y) s = .next t ∧ t.reg x = s.reg y ∧ t.pc = s.pc + 2#16 ∧ OnlyRegs [x] s t) ∧
    (∃ t, exec (.orReg x y) s = .next t ∧ (∀ k, (t.reg x).getLsbD k = ((s.reg x).getLsbD k || (s.reg y).getLsbD k)) ∧
      t.pc = s.pc + 2#16 ∧ OnlyRegs [x] s t) ∧
    (∃ t, exec (.andReg x y) s = .next t ∧ (∀ k, (t.reg x).getLsbD k = ((s.reg x).getLsbD k && (s.reg y).getLsbD k)) ∧
      t.pc = s.pc + 2#16 ∧ OnlyRegs [x] s t) ∧
    (∃ t, exec (.xorReg x y) s = .next t ∧
      (∀ k, (t.reg x).getLsbD k = ((s.reg x).getLsbD k ^^ (s.reg y).getLsbD k)) ∧
      t.pc = s.pc + 2#16 ∧ OnlyRegs [x] s t)

/-- R164, for every `x` and `y`: the sum of the old values mod 256; `VF` is the carry, and with `x = 0xF` the sum
overwrites it. -/
def Obligations.AddSetsCarry : Prop :=
  ∀ (x y : Nibble) (s : State), ∃ t, exec (.addReg x y) s = .next t ∧
    (t.reg x).toNat = ((s.reg x).toNat + (s.reg y).toNat) % 256 ∧
    (x ≠ vf → 255 < (s.reg x).toNat + (s.reg y).toNat → t.reg vf = 1#8) ∧
    (x ≠ vf → (s.reg x).toNat + (s.reg y).toNat ≤ 255 → t.reg vf = 0#8) ∧
    t.pc = s.pc + 2#16 ∧ OnlyRegs [x, vf] s t

/-- R165, neither operand being `VF` (those forms: VfAsOperandFollowsTable). -/
def Obligations.SubtractSetsGreaterFlag : Prop :=
  ∀ (x y : Nibble) (s : State), x ≠ vf → y ≠ vf → ∃ t, exec (.subReg x y) s = .next t ∧
    (t.reg x).toNat = ((s.reg x).toNat + 256 - (s.reg y).toNat) % 256 ∧
    t.reg vf = (if (s.reg y).toNat < (s.reg x).toNat then 1#8 else 0#8) ∧
    t.pc = s.pc + 2#16 ∧ OnlyRegs [x, vf] s t

/-- R167, neither operand being `VF` (those forms: VfAsOperandFollowsTable). -/
def Obligations.ReverseSubtractSetsGreaterFlag : Prop :=
  ∀ (x y : Nibble) (s : State), x ≠ vf → y ≠ vf → ∃ t, exec (.subnReg x y) s = .next t ∧
    (t.reg x).toNat = ((s.reg y).toNat + 256 - (s.reg x).toNat) % 256 ∧
    t.reg vf = (if (s.reg x).toNat < (s.reg y).toNat then 1#8 else 0#8) ∧
    t.pc = s.pc + 2#16 ∧ OnlyRegs [x, vf] s t

/-- R166 and R168, for every `y` (which is ignored) and `x` not `VF` (those forms: VfAsOperandFollowsTable). -/
def Obligations.ShiftsMoveOneBitIntoVf : Prop :=
  ∀ (x y : Nibble) (s : State), x ≠ vf →
    (∃ t, exec (.shr x y) s = .next t ∧ (t.reg x).toNat = (s.reg x).toNat / 2 ∧
      (t.reg vf).toNat = (s.reg x).toNat % 2 ∧ t.pc = s.pc + 2#16 ∧ OnlyRegs [x, vf] s t) ∧
    (∃ t, exec (.shl x y) s = .next t ∧ (t.reg x).toNat = (s.reg x).toNat * 2 % 256 ∧
      (t.reg vf).toNat = (s.reg x).toNat / 128 ∧ t.pc = s.pc + 2#16 ∧ OnlyRegs [x, vf] s t)

/-- The table of R170 (decision D9: the statements run in order, each reading the registers as they are), with `f` the old
`VF`, `a` the old `V[x]`, `b` the old `V[y]`; its rows for `8xy4` are in AddSetsCarry. -/
def Obligations.VfAsOperandFollowsTable : Prop :=
  (∀ (y : Nibble) (s : State), y ≠ vf → ∃ t, exec (.subReg vf y) s = .next t ∧
    (t.reg vf).toNat =
      ((if (s.reg y).toNat < (s.reg vf).toNat then 1 else 0) + 256 - (s.reg y).toNat) % 256 ∧
    t.pc = s.pc + 2#16 ∧ OnlyRegs [vf] s t) ∧
  (∀ (x : Nibble) (s : State), x ≠ vf → ∃ t, exec (.subReg x vf) s = .next t ∧
    (t.reg vf).toNat = (if (s.reg vf).toNat < (s.reg x).toNat then 1 else 0) ∧
    (t.reg x).toNat = ((s.reg x).toNat + 256 - (t.reg vf).toNat) % 256 ∧
    t.pc = s.pc + 2#16 ∧ OnlyRegs [x, vf] s t) ∧
  (∀ s : State, ∃ t, exec (.subReg vf vf) s = .next t ∧ t.reg vf = 0#8 ∧ t.pc = s.pc + 2#16 ∧ OnlyRegs [vf] s t) ∧
  (∀ (y : Nibble) (s : State), ∃ t, exec (.shr vf y) s = .next t ∧ t.reg vf = 0#8 ∧ t.pc = s.pc + 2#16 ∧
    OnlyRegs [vf] s t) ∧
  (∀ (y : Nibble) (s : State), y ≠ vf → ∃ t, exec (.subnReg vf y) s = .next t ∧
    (t.reg vf).toNat =
      ((s.reg y).toNat + 256 - (if (s.reg vf).toNat < (s.reg y).toNat then 1 else 0)) % 256 ∧
    t.pc = s.pc + 2#16 ∧ OnlyRegs [vf] s t) ∧
  (∀ (x : Nibble) (s : State), x ≠ vf → ∃ t, exec (.subnReg x vf) s = .next t ∧
    (t.reg vf).toNat = (if (s.reg x).toNat < (s.reg vf).toNat then 1 else 0) ∧
    (t.reg x).toNat = ((t.reg vf).toNat + 256 - (s.reg x).toNat) % 256 ∧
    t.pc = s.pc + 2#16 ∧ OnlyRegs [x, vf] s t) ∧
  (∀ s : State, ∃ t, exec (.subnReg vf vf) s = .next t ∧ t.reg vf = 0#8 ∧ t.pc = s.pc + 2#16 ∧ OnlyRegs [vf] s t) ∧
  (∀ (y : Nibble) (s : State), ∃ t, exec (.shl vf y) s = .next t ∧
    t.reg vf = (if 0x80 ≤ (s.reg vf).toNat then 2#8 else 0#8) ∧ t.pc = s.pc + 2#16 ∧ OnlyRegs [vf] s t)

/-! ### Display -/

/-- R180 and R183: every pixel is 0 afterwards, and no register but `PC` changes. -/
def Obligations.ClearDarkensEveryPixel : Prop :=
  ∀ s : State, ∃ t, exec .cls s = .next t ∧
    (∀ row col, t.display.pixel row col = false) ∧ t.display.width = s.display.width ∧
    t.display.height = s.display.height ∧ t.pc = s.pc + 2#16 ∧
    KeepsRegsBut [] s t ∧ t.i = s.i ∧ KeepsTimers s t ∧ KeepsStack s t ∧ KeepsMem s t ∧
    t.runState = s.runState ∧ KeepsCounters s t

/-- R184 and R185 on a display of any size at least as high as the sprite (bit order by decision D13, log entry 16; a sprite
higher than the display, where R184 and R185 part, is left out, log entry 25): each pixel is inverted
exactly when a set sprite bit lands on it, wrapped at both edges, and `VF` is 1 exactly when one landed on a set pixel. -/
def Obligations.DrawXorsSpriteAndReportsCollision : Prop :=
  ∀ (x y n : Nibble) (s : State), s.display.wf = true → n.toNat ≤ s.display.height → s.i.toNat + n.toNat ≤ 4096 →
    ∃ t, exec (.drw x y n) s = .next t ∧
      (∀ row col, row < s.display.height → col < s.display.width →
        (t.display.pixel row col = true ↔ ¬ (s.display.pixel row col = true ↔ SpriteCovers s x y n row col))) ∧
      (t.reg vf = 1#8 ↔ ∃ row col, row < s.display.height ∧ col < s.display.width ∧
        s.display.pixel row col = true ∧ SpriteCovers s x y n row col) ∧
      (t.reg vf = 1#8 ∨ t.reg vf = 0#8)

/-- R181 for every display, whatever its size and pixels: inside memory DRW completes, `VF` is 0 or 1 (0 where `n = 0`), and
no other register and no byte changes. -/
def Obligations.DrawCompletesAndKeepsTheRest : Prop :=
  ∀ (x y n : Nibble) (s : State), s.i.toNat + n.toNat ≤ 4096 →
    ∃ t, exec (.drw x y n) s = .next t ∧
      (t.reg vf = 1#8 ∨ t.reg vf = 0#8) ∧ (n = 0#4 → t.reg vf = 0#8 ∧ t.display = s.display) ∧
      t.display.width = s.display.width ∧ t.display.height = s.display.height ∧ t.pc = s.pc + 2#16 ∧
      KeepsRegsBut [vf] s t ∧ t.i = s.i ∧ KeepsTimers s t ∧ KeepsStack s t ∧ KeepsMem s t ∧
      t.runState = s.runState ∧ KeepsCounters s t

/-- Drawing the same sprite twice at the same place restores the framebuffer; on a clear display the first draw reports 0
and the second 1, if the sprite has a set bit (R181's property; the coordinates are no `VF`, which the first draw
writes). -/
def Obligations.DrawTwiceRestoresDisplay : Prop :=
  ∀ (x y n : Nibble) (s : State),
    x ≠ vf → y ≠ vf → s.display.wf = true → s.i.toNat + n.toNat ≤ 4096 →
    ∃ t u, exec (.drw x y n) s = .next t ∧ exec (.drw x y n) t = .next u ∧ u.display = s.display ∧
      (s.display.lit = [] → n.toNat ≤ s.display.height →
        (∃ k, k < n.toNat ∧ Memory.read s.mem (s.i.toNat + k) ≠ 0#8) → t.reg vf = 0#8 ∧ u.reg vf = 1#8)

/-- R79 (decisions D7, D8, D23): a range that leaves memory halts the machine with the lowest address outside, and changes
no register, no byte and no pixel. -/
def Obligations.RangeOutsideMemoryHalts : Prop :=
  ∀ (x y n : Nibble) (s : State),
    (4096 < s.i.toNat + n.toNat →
      ∃ t, exec (.drw x y n) s = .next t ∧ HaltsWith (.outOfBounds (max s.i.toNat 4096)) s t) ∧
    (4095 < s.i.toNat + 2 →
      ∃ t, exec (.ldB x) s = .next t ∧ HaltsWith (.outOfBounds (max s.i.toNat 4096)) s t) ∧
    (4095 < s.i.toNat + x.toNat →
      (∃ t, exec (.storeRegs x) s = .next t ∧ HaltsWith (.outOfBounds (max s.i.toNat 4096)) s t) ∧
      (∃ t, exec (.loadRegs x) s = .next t ∧ HaltsWith (.outOfBounds (max s.i.toNat 4096)) s t))

/-! ### Timers, index, memory transfer -/

/-- R190 to R192. -/
def Obligations.TimerTransfers : Prop :=
  ∀ (x : Nibble) (s : State),
    (∃ t, exec (.ldVxDt x) s = .next t ∧ t.reg x = s.dt ∧ t.pc = s.pc + 2#16 ∧ OnlyRegs [x] s t) ∧
    (∃ t, exec (.ldDtVx x) s = .next t ∧ t.dt = s.reg x ∧ t.st = s.st ∧ t.pc = s.pc + 2#16 ∧
      KeepsRegsBut [] s t ∧ t.i = s.i ∧ KeepsStack s t ∧ KeepsMem s t ∧ t.display = s.display ∧
      t.runState = s.runState ∧ KeepsCounters s t) ∧
    (∃ t, exec (.ldStVx x) s = .next t ∧ t.st = s.reg x ∧ t.dt = s.dt ∧ t.pc = s.pc + 2#16 ∧
      KeepsRegsBut [] s t ∧ t.i = s.i ∧ KeepsStack s t ∧ KeepsMem s t ∧ t.display = s.display ∧
      t.runState = s.runState ∧ KeepsCounters s t)

/-- R193 (decisions D28, D29) and R194 (decision D22): `I` plus `V[x]` mod 65536; `V[x]` times 5, unmasked. -/
def Obligations.IndexArithmetic : Prop :=
  ∀ (x : Nibble) (s : State),
    (∃ t, exec (.addI x) s = .next t ∧ t.i.toNat = (s.i.toNat + (s.reg x).toNat) % 65536 ∧ t.pc = s.pc + 2#16 ∧
      KeepsRegsBut [] s t ∧ KeepsTimers s t ∧ KeepsStack s t ∧ KeepsMem s t ∧ t.display = s.display ∧
      t.runState = s.runState ∧ KeepsCounters s t) ∧
    (∃ t, exec (.ldF x) s = .next t ∧ t.i.toNat = (s.reg x).toNat * 5 ∧ t.pc = s.pc + 2#16 ∧
      KeepsRegsBut [] s t ∧ KeepsTimers s t ∧ KeepsStack s t ∧ KeepsMem s t ∧ t.display = s.display ∧
      t.runState = s.runState ∧ KeepsCounters s t)

/-- R195, the range being inside memory: hundreds, tens and ones at `I`, `I+1`, `I+2`; every other byte and all else
unchanged. The canonical form of memory is kept by every step (StepKeepsInv). -/
def Obligations.DecimalDigitsStored : Prop :=
  ∀ (x : Nibble) (s : State), Memory.wf s.mem = true → s.i.toNat + 2 ≤ 4095 →
    ∃ t, exec (.ldB x) s = .next t ∧
      (Memory.read t.mem s.i.toNat).toNat = (s.reg x).toNat / 100 ∧
      (Memory.read t.mem (s.i.toNat + 1)).toNat = (s.reg x).toNat / 10 % 10 ∧
      (Memory.read t.mem (s.i.toNat + 2)).toNat = (s.reg x).toNat % 10 ∧
      (∀ a, a < s.i.toNat ∨ s.i.toNat + 2 < a → Memory.read t.mem a = Memory.read s.mem a) ∧
      t.pc = s.pc + 2#16 ∧ KeepsRegsBut [] s t ∧ t.i = s.i ∧ KeepsTimers s t ∧ KeepsStack s t ∧
      t.display = s.display ∧ t.runState = s.runState ∧ KeepsCounters s t

/-- R196 (decision D21: `I` is unchanged), the range being inside memory. -/
def Obligations.RegistersStored : Prop :=
  ∀ (x : Nibble) (s : State), Memory.wf s.mem = true → s.i.toNat + x.toNat ≤ 4095 →
    ∃ t, exec (.storeRegs x) s = .next t ∧
      (∀ k : Nibble, k.toNat ≤ x.toNat → Memory.read t.mem (s.i.toNat + k.toNat) = s.reg k) ∧
      (∀ a, a < s.i.toNat ∨ s.i.toNat + x.toNat < a → Memory.read t.mem a = Memory.read s.mem a) ∧
      t.pc = s.pc + 2#16 ∧ KeepsRegsBut [] s t ∧ t.i = s.i ∧ KeepsTimers s t ∧ KeepsStack s t ∧
      t.display = s.display ∧ t.runState = s.runState ∧ KeepsCounters s t

/-- R197 (decision D21: `I` is unchanged), the range being inside memory: registers above `x` are unchanged. -/
def Obligations.RegistersLoaded : Prop :=
  ∀ (x : Nibble) (s : State), s.i.toNat + x.toNat ≤ 4095 →
    ∃ t, exec (.loadRegs x) s = .next t ∧
      (∀ k : Nibble, k.toNat ≤ x.toNat → t.reg k = Memory.read s.mem (s.i.toNat + k.toNat)) ∧
      (∀ k : Nibble, x.toNat < k.toNat → t.reg k = s.reg k) ∧
      t.pc = s.pc + 2#16 ∧ t.i = s.i ∧ KeepsTimers s t ∧ KeepsStack s t ∧ KeepsMem s t ∧
      t.display = s.display ∧ t.runState = s.runState ∧ KeepsCounters s t

/-- `Fx55` then `Fx65` with the same `x` and `I` restores `V[0..x]`, whatever happened to the registers in between (R196's
property; decision D21). -/
def Obligations.StoreThenLoadRestoresRegisters : Prop :=
  ∀ (x : Nibble) (s u : State), Memory.wf s.mem = true → s.i.toNat + x.toNat ≤ 4095 →
    ∃ t, exec (.storeRegs x) s = .next t ∧
      (u.mem = t.mem → u.i = t.i →
        ∃ v, exec (.loadRegs x) u = .next v ∧ ∀ k : Nibble, k.toNat ≤ x.toNat → v.reg k = s.reg k)

/-- A store is seen by the next fetch (R76): where the next instruction is fetched from bytes that `Fx55` has just stored,
the word is the two registers stored there. -/
def Obligations.StoredBytesAreFetchedNext : Prop :=
  ∀ (x k : Nibble) (s : State), Memory.wf s.mem = true → s.i.toNat + x.toNat ≤ 4095 → k.toNat + 1 ≤ x.toNat →
    (s.pc + 2#16).toNat = s.i.toNat + k.toNat →
    ∃ t, exec (.storeRegs x) s = .next t ∧ fetch (betweenTicks t) = .ok (wordOfBytes (s.reg k) (s.reg (k + 1#4)))

/-! ### The key instructions -/

/-- R200 to R202: each halts with `OpcodeNotImplemented` and the whole instruction word, and changes nothing else. -/
def Obligations.KeyInstructionsHalt : Prop :=
  ∀ (x : Nibble) (s : State),
    (∃ t w, exec (.ldVxK x) s = .next t ∧ HaltsWith (.opcodeNotImplemented w) s t ∧
      w.toNat = 0xF00A + x.toNat * 256) ∧
    (∃ t w, exec (.skp x) s = .next t ∧ HaltsWith (.opcodeNotImplemented w) s t ∧
      w.toNat = 0xE09E + x.toNat * 256) ∧
    (∃ t w, exec (.sknp x) s = .next t ∧ HaltsWith (.opcodeNotImplemented w) s t ∧
      w.toNat = 0xE0A1 + x.toNat * 256)

/-! ### Memory and the host -/

/-- Two canonical memories that read alike at every address are the same list: equal memories are equal data (the form is
the model's, log entry 6). -/
def Obligations.CanonicalMemoriesReadingAlikeAreEqual : Prop :=
  ∀ m m' : List Host.Cell, Memory.wf m = true → Memory.wf m' = true →
    (∀ a, Memory.read m a = Memory.read m' a) → m = m'

/-- R71: repeating a write changes nothing, and writes to two addresses can be exchanged; on canonical memories. -/
def Obligations.MemoryWritesRepeatAndCommute : Prop :=
  ∀ (m : List Host.Cell) (a a' : Nat) (b b' : Byte), Memory.wf m = true → a < 4096 → a' < 4096 → a ≠ a' →
    Memory.write (Memory.write m a b) a b = Memory.write m a b ∧
    Memory.write (Memory.write m a b) a' b' = Memory.write (Memory.write m a' b') a b

/-- R63 (decisions D7, D8): an image that fits goes to `origin` and above and nothing else changes; one that does not fit
fails with the lowest address outside, and nothing is written. -/
def Obligations.HostLoadWritesImageOrFails : Prop :=
  ∀ (origin : Nat) (image : List Byte) (s : State), Memory.wf s.mem = true →
    (origin + image.length ≤ 4096 → ∃ t, load origin image s = .next t ∧
      (∀ k b, image[k]? = some b → Memory.read t.mem (origin + k) = b) ∧
      (∀ a, a < origin ∨ origin + image.length ≤ a → Memory.read t.mem a = Memory.read s.mem a) ∧
      t = { s with mem := t.mem }) ∧
    (4096 < origin + image.length → load origin image s = .fault (.loadOutOfBounds (max origin 4096)))

/-- R241, R242, R244 (decision D25): an image of at most 3584 bytes starts the reset machine with the image at `0x200`, a longer
one never starts it; a started machine takes no host action but teardown, which leaves no instance; and only a started
machine takes turns. -/
def Obligations.HostActsOnlyAtStartAndEnd : Prop :=
  (∀ image : List Byte, image.length ≤ 3584 → ∃ t,
    load 0x200 image State.reset = .next t ∧ hostAct (.load image) (.created State.reset) = some (.started t)) ∧
  (∀ image : List Byte, 3584 < image.length →
    hostAct (.load image) (.created State.reset) = some (.loadFailed 4096)) ∧
  (∀ (a : HostAction) (s : State), a ≠ .teardown → hostAct a (.started s) = none) ∧
  (∀ s : State, hostAct .teardown (.started s) = some .absent) ∧
  (∀ l : Lifecycle, (∀ s, l ≠ .started s) → l.turn = l) ∧
  (∀ s t : State, step s = .next t → (Lifecycle.started s).turn = .started t)

/-! ### Runs and fairness -/

/-- R249 (a), weak fairness of the TIMER agent (decision D17): in every run, from every point on, a step comes that begins
with at least one TIMER tick. The form of the schedule is the model's (log entry 3). -/
def Obligations.TimerTicksInfinitelyOften : Prop :=
  ∀ run : Nat → State, IsRun run → ∀ n : Nat, ∃ m : Nat, n ≤ m ∧ ∃ k : Nat,
    betweenTicks (run m) = { timerTick^[k + 1] (run m) with turn := (run m).turn + 1 }

/-- So a loop that polls a timer until it is 0 ends (R249, R223; decision D17): in a run that never executes `Fx15` the delay
timer reaches 0 and stays there, and in one that never executes `Fx18` the sound timer does. -/
def Obligations.TimersRunOutUnlessReloaded : Prop :=
  ∀ run : Nat → State, IsRun run →
    ((∀ (n : Nat) (x : Nibble), ¬ AboutToRun (.ldDtVx x) (run n)) → ∃ n : Nat, ∀ m : Nat, n ≤ m → (run m).dt = 0#8) ∧
    ((∀ (n : Nat) (x : Nibble), ¬ AboutToRun (.ldStVx x) (run n)) → ∃ n : Nat, ∀ m : Nat, n ≤ m → (run m).st = 0#8)
end

