-- ==== Sys2Proof/Laws/Encoding.lean ====
section
/-!
SUPPORT. What the three word shapes are as numbers, and that each field of a word read back is the field put in
(R91, R92).
-/
namespace Sys2Proof

theorem wordNNN_toNat (g : Nibble) (nnn : Addr) : (wordNNN g nnn).toNat = g.toNat * 4096 + nnn.toNat := by
  unfold wordNNN
  rw [BitVec.toNat_append, ← Nat.shiftLeft_add_eq_or_of_lt nnn.isLt, Nat.shiftLeft_eq]

theorem wordXKK_toNat (g x : Nibble) (kk : Byte) :
    (wordXKK g x kk).toNat = g.toNat * 4096 + x.toNat * 256 + kk.toNat := by
  unfold wordXKK
  rw [BitVec.toNat_append, BitVec.toNat_append, ← Nat.shiftLeft_add_eq_or_of_lt kk.isLt,
    ← Nat.shiftLeft_add_eq_or_of_lt x.isLt]
  simp only [Nat.shiftLeft_eq]
  omega

theorem wordXYN_toNat (g x y n : Nibble) :
    (wordXYN g x y n).toNat = g.toNat * 4096 + x.toNat * 256 + y.toNat * 16 + n.toNat := by
  unfold wordXYN
  rw [BitVec.toNat_append, BitVec.toNat_append, BitVec.toNat_append, ← Nat.shiftLeft_add_eq_or_of_lt n.isLt,
    ← Nat.shiftLeft_add_eq_or_of_lt y.isLt, ← Nat.shiftLeft_add_eq_or_of_lt x.isLt]
  simp only [Nat.shiftLeft_eq]
  omega

theorem wordOfBytes_toNat (hi lo : Byte) : (wordOfBytes hi lo).toNat = hi.toNat * 256 + lo.toNat := by
  unfold wordOfBytes
  rw [BitVec.toNat_append, ← Nat.shiftLeft_add_eq_or_of_lt lo.isLt, Nat.shiftLeft_eq]

theorem fieldGroup_toNat (w : Word) : (fieldGroup w).toNat = w.toNat / 4096 := by
  have := w.isLt
  simp only [fieldGroup, BitVec.extractLsb'_toNat, Nat.shiftRight_eq_div_pow]; omega
theorem fieldX_toNat (w : Word) : (fieldX w).toNat = w.toNat / 256 % 16 := by
  simp only [fieldX, BitVec.extractLsb'_toNat, Nat.shiftRight_eq_div_pow]
theorem fieldY_toNat (w : Word) : (fieldY w).toNat = w.toNat / 16 % 16 := by
  simp only [fieldY, BitVec.extractLsb'_toNat, Nat.shiftRight_eq_div_pow]
theorem fieldN_toNat (w : Word) : (fieldN w).toNat = w.toNat % 16 := by
  simp only [fieldN, BitVec.extractLsb'_toNat, Nat.shiftRight_eq_div_pow]; omega
theorem fieldKK_toNat (w : Word) : (fieldKK w).toNat = w.toNat % 256 := by
  simp only [fieldKK, BitVec.extractLsb'_toNat, Nat.shiftRight_eq_div_pow]; omega
theorem fieldNNN_toNat (w : Word) : (fieldNNN w).toNat = w.toNat % 4096 := by
  simp only [fieldNNN, BitVec.extractLsb'_toNat, Nat.shiftRight_eq_div_pow]; omega

/-! ### Fields of the shapes -/

@[simp] theorem fieldGroup_wordNNN (g : Nibble) (a : Addr) : fieldGroup (wordNNN g a) = g := by
  have := a.isLt
  apply BitVec.eq_of_toNat_eq; rw [fieldGroup_toNat, wordNNN_toNat]; omega
@[simp] theorem fieldNNN_wordNNN (g : Nibble) (a : Addr) : fieldNNN (wordNNN g a) = a := by
  have := a.isLt
  apply BitVec.eq_of_toNat_eq; rw [fieldNNN_toNat, wordNNN_toNat]; omega
@[simp] theorem fieldGroup_wordXKK (g x : Nibble) (kk : Byte) : fieldGroup (wordXKK g x kk) = g := by
  have := x.isLt; have := kk.isLt
  apply BitVec.eq_of_toNat_eq; rw [fieldGroup_toNat, wordXKK_toNat]; omega
@[simp] theorem fieldX_wordXKK (g x : Nibble) (kk : Byte) : fieldX (wordXKK g x kk) = x := by
  have := x.isLt; have := kk.isLt
  apply BitVec.eq_of_toNat_eq; rw [fieldX_toNat, wordXKK_toNat]; omega
@[simp] theorem fieldKK_wordXKK (g x : Nibble) (kk : Byte) : fieldKK (wordXKK g x kk) = kk := by
  have := x.isLt; have := kk.isLt
  apply BitVec.eq_of_toNat_eq; rw [fieldKK_toNat, wordXKK_toNat]; omega
@[simp] theorem fieldGroup_wordXYN (g x y n : Nibble) : fieldGroup (wordXYN g x y n) = g := by
  have := x.isLt; have := y.isLt; have := n.isLt
  apply BitVec.eq_of_toNat_eq; rw [fieldGroup_toNat, wordXYN_toNat]; omega
@[simp] theorem fieldX_wordXYN (g x y n : Nibble) : fieldX (wordXYN g x y n) = x := by
  have := x.isLt; have := y.isLt; have := n.isLt
  apply BitVec.eq_of_toNat_eq; rw [fieldX_toNat, wordXYN_toNat]; omega
@[simp] theorem fieldY_wordXYN (g x y n : Nibble) : fieldY (wordXYN g x y n) = y := by
  have := x.isLt; have := y.isLt; have := n.isLt
  apply BitVec.eq_of_toNat_eq; rw [fieldY_toNat, wordXYN_toNat]; omega
@[simp] theorem fieldN_wordXYN (g x y n : Nibble) : fieldN (wordXYN g x y n) = n := by
  have := x.isLt; have := y.isLt; have := n.isLt
  apply BitVec.eq_of_toNat_eq; rw [fieldN_toNat, wordXYN_toNat]; omega

/-! ### A word is its fields -/

theorem wordNNN_of_fields (w : Word) : wordNNN (fieldGroup w) (fieldNNN w) = w := by
  apply BitVec.eq_of_toNat_eq; rw [wordNNN_toNat, fieldGroup_toNat, fieldNNN_toNat]; omega
theorem wordXKK_of_fields (w : Word) : wordXKK (fieldGroup w) (fieldX w) (fieldKK w) = w := by
  apply BitVec.eq_of_toNat_eq; rw [wordXKK_toNat, fieldGroup_toNat, fieldX_toNat, fieldKK_toNat]; omega
theorem wordXYN_of_fields (w : Word) : wordXYN (fieldGroup w) (fieldX w) (fieldY w) (fieldN w) = w := by
  apply BitVec.eq_of_toNat_eq
  rw [wordXYN_toNat, fieldGroup_toNat, fieldX_toNat, fieldY_toNat, fieldN_toNat]; omega

/-- The two bytes of a word, read back with the first one high, are the word (R67). -/
theorem wordOfBytes_bytes (w : Word) : wordOfBytes (w.extractLsb' 8 8) (w.extractLsb' 0 8) = w := by
  have := w.isLt
  apply BitVec.eq_of_toNat_eq
  rw [wordOfBytes_toNat]
  simp only [BitVec.extractLsb'_toNat, Nat.shiftRight_eq_div_pow]; omega

/-! ### Masks (R95) -/

theorem getLsbD_wordNNN (g : Nibble) (a : Addr) (k : Nat) :
    (wordNNN g a).getLsbD k = if k < 12 then a.getLsbD k else g.getLsbD (k - 12) := by
  change BitVec.getLsbD (w := 4 + 12) (g ++ a) k = _
  simp only [BitVec.getLsbD_append]

theorem getLsbD_wordXKK (g x : Nibble) (kk : Byte) (k : Nat) :
    (wordXKK g x kk).getLsbD k =
      if k < 8 then kk.getLsbD k else if k < 12 then x.getLsbD (k - 8) else g.getLsbD (k - 12) := by
  change BitVec.getLsbD (w := 4 + 4 + 8) (g ++ x ++ kk) k = _
  simp only [BitVec.getLsbD_append]
  split_ifs <;> first | rfl | omega

theorem getLsbD_wordXYN (g x y n : Nibble) (k : Nat) :
    (wordXYN g x y n).getLsbD k =
      if k < 4 then n.getLsbD k else if k < 8 then y.getLsbD (k - 4)
      else if k < 12 then x.getLsbD (k - 8) else g.getLsbD (k - 12) := by
  change BitVec.getLsbD (w := 4 + 4 + 4 + 4) (g ++ x ++ y ++ n) k = _
  simp only [BitVec.getLsbD_append]
  split_ifs <;> first | rfl | omega

/-- The mask of formats `NNN`, `XKK` and `XYN` with operands in all low bits keeps the group. -/
theorem and_maskGroup (w : Word) : w &&& 0xF000#16 = wordNNN (fieldGroup w) 0#12 := by
  apply BitVec.eq_of_getLsbD_eq
  intro k hk
  rw [getLsbD_wordNNN, BitVec.getLsbD_and]
  simp only [fieldGroup, BitVec.getLsbD_extractLsb']
  interval_cases k <;> simp

/-- The mask of formats `Z` and `XFF` keeps the group and the low byte. -/
theorem and_maskGroupKK (w : Word) : w &&& 0xF0FF#16 = wordXKK (fieldGroup w) 0#4 (fieldKK w) := by
  apply BitVec.eq_of_getLsbD_eq
  intro k hk
  rw [getLsbD_wordXKK, BitVec.getLsbD_and]
  simp only [fieldGroup, fieldKK, BitVec.getLsbD_extractLsb']
  interval_cases k <;> simp

/-- The mask of format `XYF` keeps the group and the low nibble. -/
theorem and_maskGroupN (w : Word) : w &&& 0xF00F#16 = wordXYN (fieldGroup w) 0#4 0#4 (fieldN w) := by
  apply BitVec.eq_of_getLsbD_eq
  intro k hk
  rw [getLsbD_wordXYN, BitVec.getLsbD_and]
  simp only [fieldGroup, fieldN, BitVec.getLsbD_extractLsb']
  interval_cases k <;> simp

/-- Selecting a row of mask `F000` is having its group. -/
theorem selects_maskGroup (w : Word) (g : Nibble) (f : Word → Instr) :
    (OpcodeRow.mk 0xF000#16 (wordNNN g 0#12) f).selects w = true ↔ fieldGroup w = g := by
  simp only [OpcodeRow.selects, beq_iff_eq, and_maskGroup]
  exact ⟨fun h => by simpa using congrArg fieldGroup h, fun h => by rw [h]⟩

/-- Selecting a row of mask `F0FF` is having its group and low byte. -/
theorem selects_maskGroupKK (w : Word) (g : Nibble) (kk : Byte) (f : Word → Instr) :
    (OpcodeRow.mk 0xF0FF#16 (wordXKK g 0#4 kk) f).selects w = true ↔ fieldGroup w = g ∧ fieldKK w = kk := by
  simp only [OpcodeRow.selects, beq_iff_eq, and_maskGroupKK]
  exact ⟨fun h => ⟨by simpa using congrArg fieldGroup h, by simpa using congrArg fieldKK h⟩,
    fun ⟨h, h'⟩ => by rw [h, h']⟩

/-- Selecting a row of mask `F00F` is having its group and low nibble. -/
theorem selects_maskGroupN (w : Word) (g n : Nibble) (f : Word → Instr) :
    (OpcodeRow.mk 0xF00F#16 (wordXYN g 0#4 0#4 n) f).selects w = true ↔ fieldGroup w = g ∧ fieldN w = n := by
  simp only [OpcodeRow.selects, beq_iff_eq, and_maskGroupN]
  exact ⟨fun h => ⟨by simpa using congrArg fieldGroup h, by simpa using congrArg fieldN h⟩,
    fun ⟨h, h'⟩ => by rw [h, h']⟩

end Sys2Proof
end

