-- ==== Sys2Proof/Laws/Decode.lean ====
section
/-!
SUPPORT. What decode does with a word of each group (R94): later proofs cite these and never unfold decode.
-/
namespace Sys2Proof

/-- The group is one of sixteen. -/
theorem fieldGroup_cases (w : Word) :
    fieldGroup w = 0x0#4 ∨ fieldGroup w = 0x1#4 ∨ fieldGroup w = 0x2#4 ∨ fieldGroup w = 0x3#4 ∨
    fieldGroup w = 0x4#4 ∨ fieldGroup w = 0x5#4 ∨ fieldGroup w = 0x6#4 ∨ fieldGroup w = 0x7#4 ∨
    fieldGroup w = 0x8#4 ∨ fieldGroup w = 0x9#4 ∨ fieldGroup w = 0xA#4 ∨ fieldGroup w = 0xB#4 ∨
    fieldGroup w = 0xC#4 ∨ fieldGroup w = 0xD#4 ∨ fieldGroup w = 0xE#4 ∨ fieldGroup w = 0xF#4 := by
  have := (fieldGroup w).isLt
  simp only [← BitVec.toNat_inj, BitVec.toNat_ofNat]
  omega

theorem decode_group0 {w : Word} (h : fieldGroup w = 0x0#4) :
    decode w = decodeGroup0 w := by simp [decode, h]
theorem decode_group1 {w : Word} (h : fieldGroup w = 0x1#4) :
    decode w = .ok (.jp (fieldNNN w)) := by simp [decode, h]
theorem decode_group2 {w : Word} (h : fieldGroup w = 0x2#4) :
    decode w = .ok (.call (fieldNNN w)) := by simp [decode, h]
theorem decode_group3 {w : Word} (h : fieldGroup w = 0x3#4) :
    decode w = .ok (.seImm (fieldX w) (fieldKK w)) := by simp [decode, h]
theorem decode_group4 {w : Word} (h : fieldGroup w = 0x4#4) :
    decode w = .ok (.sneImm (fieldX w) (fieldKK w)) := by simp [decode, h]
theorem decode_group5 {w : Word} (h : fieldGroup w = 0x5#4) :
    decode w = if fieldN w = 0x0#4 then .ok (.seReg (fieldX w) (fieldY w)) else .error (.unknownOpcode w) := by simp [decode, h]
theorem decode_group6 {w : Word} (h : fieldGroup w = 0x6#4) :
    decode w = .ok (.ldImm (fieldX w) (fieldKK w)) := by simp [decode, h]
theorem decode_group7 {w : Word} (h : fieldGroup w = 0x7#4) :
    decode w = .ok (.addImm (fieldX w) (fieldKK w)) := by simp [decode, h]
theorem decode_group8 {w : Word} (h : fieldGroup w = 0x8#4) :
    decode w = decodeGroup8 w := by simp [decode, h]
theorem decode_group9 {w : Word} (h : fieldGroup w = 0x9#4) :
    decode w = if fieldN w = 0x0#4 then .ok (.sneReg (fieldX w) (fieldY w)) else .error (.unknownOpcode w) := by simp [decode, h]
theorem decode_groupA {w : Word} (h : fieldGroup w = 0xA#4) :
    decode w = .ok (.ldI (fieldNNN w)) := by simp [decode, h]
theorem decode_groupB {w : Word} (h : fieldGroup w = 0xB#4) :
    decode w = .ok (.jpV0 (fieldNNN w)) := by simp [decode, h]
theorem decode_groupC {w : Word} (h : fieldGroup w = 0xC#4) :
    decode w = .ok (.rnd (fieldX w) (fieldKK w)) := by simp [decode, h]
theorem decode_groupD {w : Word} (h : fieldGroup w = 0xD#4) :
    decode w = .ok (.drw (fieldX w) (fieldY w) (fieldN w)) := by simp [decode, h]
theorem decode_groupE {w : Word} (h : fieldGroup w = 0xE#4) :
    decode w = decodeGroupE w := by simp [decode, h]
theorem decode_groupF {w : Word} (h : fieldGroup w = 0xF#4) :
    decode w = decodeGroupF w := by simp [decode, h]

end Sys2Proof
end

