-- ==== Sys2Proof/Laws/Display.lean ====
section
/-!
SUPPORT. The framebuffer: what inverting one pixel changes, and that every operation of the port keeps the canonical
form and the size (44_display.md rules R183, R184).
-/
namespace Sys2Proof.Machine.Display

@[simp] theorem flip_width (d : Display) (r c : Nat) : (d.flip r c).width = d.width := rfl
@[simp] theorem flip_height (d : Display) (r c : Nat) : (d.flip r c).height = d.height := rfl
@[simp] theorem clear_width (d : Display) : d.clear.width = d.width := rfl
@[simp] theorem clear_height (d : Display) : d.clear.height = d.height := rfl
@[simp] theorem clear_pixel (d : Display) (r c : Nat) : d.clear.pixel r c = false := rfl
@[simp] theorem plot_width (p : Display × Bool) (r c : Nat) : (plot p r c).1.width = p.1.width := rfl
@[simp] theorem plot_height (p : Display × Bool) (r c : Nat) : (plot p r c).1.height = p.1.height := rfl

/-! ### Inverting a number in a rising list -/

theorem risingFrom_cons {lo bound p : Nat} {rest : List Nat} :
    risingFrom lo bound (p :: rest) = true ↔ lo ≤ p ∧ p < bound ∧ risingFrom (p + 1) bound rest = true := by
  simp [risingFrom, and_assoc]

theorem risingFrom_mono {l : List Nat} {lo lo' bound : Nat} (h : risingFrom lo bound l = true) (hle : lo' ≤ lo) :
    risingFrom lo' bound l = true := by
  cases l with
  | nil => rfl
  | cons p rest => rw [risingFrom_cons] at h ⊢; exact ⟨by omega, h.2⟩

theorem le_of_mem_risingFrom {l : List Nat} {lo bound p : Nat} (h : risingFrom lo bound l = true) (hp : p ∈ l) :
    lo ≤ p ∧ p < bound := by
  induction l generalizing lo with
  | nil => cases hp
  | cons q rest ih =>
    rw [risingFrom_cons] at h
    rcases List.mem_cons.1 hp with rfl | hp
    · exact ⟨h.1, h.2.1⟩
    · have := ih h.2.2 hp; omega

theorem risingFrom_flipIn {l : List Nat} {lo bound p : Nat} (h : risingFrom lo bound l = true) (hlo : lo ≤ p)
    (hp : p < bound) : risingFrom lo bound (flipIn l p) = true := by
  induction l generalizing lo with
  | nil => simp [flipIn, risingFrom, hlo, hp]
  | cons q rest ih =>
    rw [risingFrom_cons] at h
    obtain ⟨h1, h2, h3⟩ := h
    unfold flipIn
    split
    · exact risingFrom_mono h3 (by omega)
    · split
      · exact risingFrom_cons.2 ⟨hlo, hp, risingFrom_cons.2 ⟨by omega, h2, h3⟩⟩
      · exact risingFrom_cons.2 ⟨h1, h2, ih h3 (by omega)⟩

/-- Inverting `p` puts in or takes out `p` and nothing else. -/
theorem mem_flipIn {l : List Nat} {lo bound p q : Nat} (h : risingFrom lo bound l = true) :
    q ∈ flipIn l p ↔ if q = p then q ∉ l else q ∈ l := by
  induction l generalizing lo with
  | nil => simp [flipIn]
  | cons k rest ih =>
    rw [risingFrom_cons] at h
    obtain ⟨h1, h2, h3⟩ := h
    have hk : k ∉ rest := fun hm => absurd (le_of_mem_risingFrom h3 hm).1 (by omega)
    unfold flipIn
    split
    · subst_vars
      split_ifs with hq
      · subst hq; simp [hk]
      · simp [hq]
    · split
      · have hp : p ∉ rest := fun hm => absurd (le_of_mem_risingFrom h3 hm).1 (by omega)
        split_ifs with hq
        · have hne : q ≠ k := fun hqk => ‹¬p = k› (hq ▸ hqk)
          have hr : q ∉ rest := hq ▸ hp
          simp [hq, hp]
          exact fun hpk => hne (hq.trans hpk)
        · simp [hq]
      · rw [List.mem_cons, ih h3]
        split_ifs with hq
        · have hne : q ≠ k := fun hqk => ‹¬p = k› (hq ▸ hqk)
          simp [hne]
        · exact List.mem_cons.symm

/-! ### The port keeps the canonical form -/

theorem wf_iff {d : Display} :
    d.wf = true ↔ 8 ≤ d.width ∧ 1 ≤ d.height ∧ risingFrom 0 (d.height * d.width) d.lit = true := by
  simp [wf, sizeOk, and_assoc]

theorem pixelNumber_lt {d : Display} {r c : Nat} (hr : r < d.height) (hc : c < d.width) :
    d.pixelNumber r c < d.height * d.width := by
  have := Nat.mul_le_mul_right d.width (show r + 1 ≤ d.height from hr)
  unfold pixelNumber
  rw [Nat.add_mul] at this
  omega

/-- Two pixels inside the display with one number are one pixel. -/
theorem pixelNumber_inj {d : Display} {r r' c c' : Nat} (hc : c < d.width) (hc' : c' < d.width)
    (h : d.pixelNumber r c = d.pixelNumber r' c') : r = r' ∧ c = c' := by
  unfold pixelNumber at h
  have hr : r = r' := by
    have h1 : (r * d.width + c) / d.width = r := by
      rw [Nat.mul_comm, Nat.mul_add_div (by omega), Nat.div_eq_of_lt hc]; rfl
    have h2 : (r' * d.width + c') / d.width = r' := by
      rw [Nat.mul_comm, Nat.mul_add_div (by omega), Nat.div_eq_of_lt hc']; rfl
    rw [← h1, h, h2]
  subst hr
  exact ⟨rfl, by omega⟩

theorem wf_clear {d : Display} (h : d.wf = true) : d.clear.wf = true := by
  rw [wf_iff] at h ⊢
  exact ⟨h.1, h.2.1, rfl⟩

theorem wf_flip {d : Display} {r c : Nat} (h : d.wf = true) (hr : r < d.height) (hc : c < d.width) :
    (d.flip r c).wf = true := by
  rw [wf_iff] at h ⊢
  exact ⟨h.1, h.2.1, risingFrom_flipIn h.2.2 (Nat.zero_le _) (pixelNumber_lt hr hc)⟩

/-- Inverting one pixel inverts that pixel and leaves every other one. -/
theorem pixel_flip {d : Display} {r c r' c' : Nat} (h : d.wf = true) (hc : c < d.width) (hc' : c' < d.width) :
    (d.flip r c).pixel r' c' = if r' = r ∧ c' = c then !d.pixel r' c' else d.pixel r' c' := by
  rw [wf_iff] at h
  have key := mem_flipIn (p := d.pixelNumber r c) (q := d.pixelNumber r' c') h.2.2
  have hi : d.pixelNumber r' c' = d.pixelNumber r c ↔ r' = r ∧ c' = c :=
    ⟨pixelNumber_inj hc' hc, fun ⟨hr, hc⟩ => by rw [hr, hc]⟩
  simp only [hi] at key
  have hl : ∀ e : Display, ∀ r c, e.pixel r c = decide (e.pixelNumber r c ∈ e.lit) := fun e r c => by
    simp [pixel, List.contains_eq_mem]
  rw [hl, hl]
  change decide (d.pixelNumber r' c' ∈ flipIn d.lit (d.pixelNumber r c)) = _
  split_ifs at key ⊢
  all_goals (first | (rw [decide_eq_decide]; exact key) | (rw [← decide_not, decide_eq_decide]; exact key))

end Sys2Proof.Machine.Display
end

