-- ==== Sys2Proof/Laws/Draw.lean ====
section
/-!
SUPPORT. What `draw` does, said once: it plots the list `plots` of pixels, each a set sprite bit's place; a pixel
ends inverted when the list names it an odd number of times, and a list without repeats collides exactly where it
meets a set pixel (44_display.md rule R184).
-/
namespace Sys2Proof.Machine.Display

/-- Plot pixels, given as `(row, col)`, one after the other. -/
def plotAll (l : List (Nat × Nat)) (p : Display × Bool) : Display × Bool := l.foldl (fun p q => plot p q.1 q.2) p

/-- The pixels one sprite row plots in the columns listed. -/
def rowPlots (w x0 row : Nat) (b : Byte) (cols : List Nat) : List (Nat × Nat) :=
  (cols.filter (spriteBit b)).map (fun c => (row, (x0 + c) % w))

/-- The pixels the rows of a sprite plot, from row `y0 + r` on. -/
def plots (w h x0 y0 : Nat) : Nat → List Byte → List (Nat × Nat)
  | _, [] => []
  | r, b :: rest => rowPlots w x0 ((y0 + r) % h) b [0, 1, 2, 3, 4, 5, 6, 7] ++ plots w h x0 y0 (r + 1) rest

/-- `(row, col)` lies on the display. -/
def Inside (d : Display) (q : Nat × Nat) : Prop := q.1 < d.height ∧ q.2 < d.width

theorem plotAll_size (l : List (Nat × Nat)) (p : Display × Bool) :
    (plotAll l p).1.width = p.1.width ∧ (plotAll l p).1.height = p.1.height := by
  induction l generalizing p with
  | nil => exact ⟨rfl, rfl⟩
  | cons q l ih => exact ih (plot p q.1 q.2)

theorem foldl_row_eq_plotAll (x0 row : Nat) (b : Byte) (cols : List Nat) (p : Display × Bool) :
    cols.foldl (fun p c => if spriteBit b c then plot p row ((x0 + c) % p.1.width) else p) p =
      plotAll (rowPlots p.1.width x0 row b cols) p := by
  induction cols generalizing p with
  | nil => rfl
  | cons c cols ih =>
    rw [List.foldl_cons, ih]
    by_cases h : spriteBit b c = true
    · simp [h, rowPlots, plotAll]
    · simp [h, rowPlots]

theorem drawRows_eq_plotAll (x0 y0 r : Nat) (bytes : List Byte) (p : Display × Bool) :
    drawRows x0 y0 r bytes p = plotAll (plots p.1.width p.1.height x0 y0 r bytes) p := by
  induction bytes generalizing p r with
  | nil => rfl
  | cons b rest ih =>
    have hs := plotAll_size (rowPlots p.1.width x0 ((y0 + r) % p.1.height) b [0, 1, 2, 3, 4, 5, 6, 7]) p
    rw [drawRows, ih, drawRow, foldl_row_eq_plotAll, plots, hs.1, hs.2]
    simp [plotAll]

theorem mem_plots {w h x0 y0 r : Nat} {bytes : List Byte} {q : Nat × Nat} :
    q ∈ plots w h x0 y0 r bytes ↔ ∃ k c, ∃ hk : k < bytes.length, c < 8 ∧ spriteBit bytes[k] c = true ∧
      q = ((y0 + (r + k)) % h, (x0 + c) % w) := by
  induction bytes generalizing r with
  | nil => simp [plots]
  | cons b rest ih =>
    rw [plots, List.mem_append, ih, rowPlots, List.mem_map]
    constructor
    · rintro (⟨c, hc, rfl⟩ | ⟨k, c, hk, hc, hb, rfl⟩)
      · rw [List.mem_filter] at hc
        refine ⟨0, c, by simp, ?_, hc.2, rfl⟩
        have := hc.1
        simp at this
        omega
      · exact ⟨k + 1, c, by simp; omega, hc, by simpa using hb, by rw [show r + 1 + k = r + (k + 1) by omega]⟩
    · rintro ⟨k, c, hk, hc, hb, rfl⟩
      cases k with
      | zero => exact .inl ⟨c, by rw [List.mem_filter]; exact ⟨by simp; omega, hb⟩, rfl⟩
      | succ k =>
        exact .inr ⟨k, c, by simp at hk; omega, hc, by simpa using hb, by rw [show r + 1 + k = r + (k + 1) by omega]⟩

theorem add_mod_inj {a c c' w : Nat} (h : (a + c) % w = (a + c') % w) (hc : c < w) (hc' : c' < w) : c = c' := by
  have hm : c % w = c' % w := Nat.ModEq.add_left_cancel' a (show a + c ≡ a + c' [MOD w] from h)
  rwa [Nat.mod_eq_of_lt hc, Nat.mod_eq_of_lt hc'] at hm

/-- A sprite no wider and no higher than the display plots no pixel twice. -/
theorem nodup_plots {w h x0 y0 r : Nat} {bytes : List Byte} (hw : 8 ≤ w) (hb : r + bytes.length ≤ h) :
    (plots w h x0 y0 r bytes).Nodup := by
  induction bytes generalizing r with
  | nil => exact List.nodup_nil
  | cons b rest ih =>
    simp at hb
    rw [plots, List.nodup_append]
    refine ⟨?_, ih (by omega), ?_⟩
    · refine List.Nodup.map_on ?_ (List.Nodup.filter _ (by decide))
      intro c hc c' hc' e
      rw [List.mem_filter] at hc hc'
      have h1 := hc.1
      have h2 := hc'.1
      simp at h1 h2
      exact add_mod_inj (congrArg Prod.snd e) (by omega) (by omega)
    · intro q hq q' hq' e
      obtain ⟨k, c, hk, -, -, rfl⟩ := mem_plots.1 hq'
      rw [rowPlots, List.mem_map] at hq
      obtain ⟨c', -, rfl⟩ := hq
      have := add_mod_inj (congrArg Prod.fst e) (by omega) (by omega)
      omega

theorem inside_of_mem_plots {d : Display} {x0 y0 r : Nat} {bytes : List Byte} (h : d.wf = true) {q : Nat × Nat}
    (hq : q ∈ plots d.width d.height x0 y0 r bytes) : d.Inside q := by
  obtain ⟨k, c, -, -, -, rfl⟩ := mem_plots.1 hq
  rw [wf_iff] at h
  exact ⟨Nat.mod_lt _ (by omega), Nat.mod_lt _ (by omega)⟩

theorem wf_plotAll {l : List (Nat × Nat)} {p : Display × Bool} (h : p.1.wf = true) (hl : ∀ q ∈ l, p.1.Inside q) :
    (plotAll l p).1.wf = true := by
  induction l generalizing p with
  | nil => exact h
  | cons q l ih =>
    have hq := hl q (by simp)
    exact ih (p := plot p q.1 q.2) (wf_flip h hq.1 hq.2) (fun a ha => hl a (by simp [ha]))

/-- A pixel ends inverted exactly when it is plotted an odd number of times. -/
theorem pixel_plotAll {l : List (Nat × Nat)} {p : Display × Bool} (h : p.1.wf = true) (hl : ∀ q ∈ l, p.1.Inside q)
    {row col : Nat} (ha : p.1.Inside (row, col)) :
    (plotAll l p).1.pixel row col = (p.1.pixel row col ^^ (l.count (row, col) % 2 == 1)) := by
  induction l generalizing p with
  | nil => simp [plotAll]
  | cons q l ih =>
    have hq := hl q (by simp)
    have step := ih (p := plot p q.1 q.2) (wf_flip h hq.1 hq.2) (fun a ha => hl a (by simp [ha])) ha
    change (plotAll l (plot p q.1 q.2)).1.pixel row col = _
    rw [step]
    change ((p.1.flip q.1 q.2).pixel row col ^^ _) = _
    rw [pixel_flip h hq.2 ha.2, List.count_cons]
    by_cases e : q = (row, col)
    · subst e
      rcases Nat.mod_two_eq_zero_or_one (List.count (row, col) l) with e | e <;> simp [e, Nat.add_mod]
    · have hne : ¬ (row = q.1 ∧ col = q.2) := fun hh => e (Prod.ext hh.1.symm hh.2.symm)
      simp [hne, e]

/-- Pixels plotted once each collide exactly where one of them was set. -/
theorem collision_plotAll {l : List (Nat × Nat)} {p : Display × Bool} (h : p.1.wf = true)
    (hl : ∀ q ∈ l, p.1.Inside q) (hn : l.Nodup) :
    (plotAll l p).2 = true ↔ p.2 = true ∨ ∃ q ∈ l, p.1.pixel q.1 q.2 = true := by
  induction l generalizing p with
  | nil => simp [plotAll]
  | cons q l ih =>
    have hq := hl q (by simp)
    rw [List.nodup_cons] at hn
    have step := ih (p := plot p q.1 q.2) (wf_flip h hq.1 hq.2) (fun a ha => hl a (by simp [ha])) hn.2
    have key : ∀ a ∈ l, (p.1.flip q.1 q.2).pixel a.1 a.2 = p.1.pixel a.1 a.2 := by
      intro a ha
      rw [pixel_flip h hq.2 (hl a (by simp [ha])).2, if_neg]
      rintro ⟨e1, e2⟩
      exact hn.1 (by rw [show q = a from Prod.ext e1.symm e2.symm]; exact ha)
    change (plotAll l (plot p q.1 q.2)).2 = true ↔ _
    rw [step]
    change ((p.2 || p.1.pixel q.1 q.2) = true ∨ ∃ a ∈ l, (p.1.flip q.1 q.2).pixel a.1 a.2 = true) ↔ _
    rw [Bool.or_eq_true, or_assoc]
    apply or_congr_right
    constructor
    · rintro (h1 | ⟨a, ha, h1⟩)
      · exact ⟨q, by simp, h1⟩
      · exact ⟨a, by simp [ha], by rw [← key a ha]; exact h1⟩
    · rintro ⟨a, ha, h1⟩
      rcases List.mem_cons.1 ha with rfl | ha
      · exact .inl h1
      · exact .inr ⟨a, ha, by rw [key a ha]; exact h1⟩

/-- `draw` plots its list, and answers the collision; the size stays. -/
theorem draw_eq_plotAll (d : Display) (x y : Nat) (bytes : List Byte) :
    d.draw x y bytes = plotAll (plots d.width d.height (x % d.width) (y % d.height) 0 bytes) (d, false) :=
  drawRows_eq_plotAll _ _ _ _ _

theorem draw_size (d : Display) (x y : Nat) (bytes : List Byte) :
    (d.draw x y bytes).1.width = d.width ∧ (d.draw x y bytes).1.height = d.height := by
  rw [draw_eq_plotAll]; exact plotAll_size _ _

theorem wf_draw {d : Display} (h : d.wf = true) (x y : Nat) (bytes : List Byte) : (d.draw x y bytes).1.wf = true := by
  rw [draw_eq_plotAll]; exact wf_plotAll h fun _ hq => inside_of_mem_plots h hq

end Sys2Proof.Machine.Display
end

