-- ==== Sys2Proof/Laws/Memory.lean ====
section
/-!
SUPPORT. Memory: what a write reads back as, that every operation keeps the canonical form, and ranges
(20_memory.md rules R61, R62, R68, R71).
-/
namespace Sys2Proof.Machine.Memory

/-! ### The canonical form -/

theorem wfFrom_cons {lo k : Nat} {b : Byte} {rest : List Host.Cell} :
    wfFrom lo ((k, b) :: rest) = true ↔
      lo ≤ k ∧ k < Config.memSize ∧ b ≠ initialByte k ∧ wfFrom (k + 1) rest = true := by
  simp [wfFrom, and_assoc]

theorem wfFrom_mono {m : List Host.Cell} {lo lo' : Nat} (h : wfFrom lo m = true) (hle : lo' ≤ lo) :
    wfFrom lo' m = true := by
  cases m with
  | nil => rfl
  | cons c rest =>
    obtain ⟨k, b⟩ := c
    rw [wfFrom_cons] at h ⊢
    exact ⟨by omega, h.2⟩

/-- An address below every listed one reads as it did at reset. -/
theorem read_below {m : List Host.Cell} {lo a : Nat} (h : wfFrom lo m = true) (ha : a < lo) :
    read m a = initialByte a := by
  induction m generalizing lo with
  | nil => rfl
  | cons c rest ih =>
    obtain ⟨k, b⟩ := c
    rw [wfFrom_cons] at h
    rw [read, if_neg (by omega)]
    exact ih h.2.2.2 (by omega)

theorem wfFrom_insert {m : List Host.Cell} {lo a : Nat} {b : Byte} (h : wfFrom lo m = true) (hlo : lo ≤ a)
    (ha : a < Config.memSize) (hb : b ≠ initialByte a) : wfFrom lo (insert m a b) = true := by
  induction m generalizing lo with
  | nil => simp [insert, hlo, ha, hb, wfFrom]
  | cons c rest ih =>
    obtain ⟨k, c⟩ := c
    rw [wfFrom_cons] at h
    obtain ⟨h1, h2, h3, h4⟩ := h
    unfold insert
    split
    · subst_vars; exact wfFrom_cons.2 ⟨hlo, ha, hb, h4⟩
    · split
      · exact wfFrom_cons.2 ⟨hlo, ha, hb, wfFrom_cons.2 ⟨by omega, h2, h3, h4⟩⟩
      · exact wfFrom_cons.2 ⟨h1, h2, h3, ih h4 (by omega)⟩

theorem wfFrom_erase {m : List Host.Cell} {lo a : Nat} (h : wfFrom lo m = true) : wfFrom lo (erase m a) = true := by
  induction m generalizing lo with
  | nil => rfl
  | cons c rest ih =>
    obtain ⟨k, c⟩ := c
    rw [wfFrom_cons] at h
    obtain ⟨h1, h2, h3, h4⟩ := h
    unfold erase
    split
    · exact wfFrom_mono h4 (by omega)
    · exact wfFrom_cons.2 ⟨h1, h2, h3, ih h4⟩

/-- A write inside memory keeps the canonical form. -/
theorem wf_write {m : List Host.Cell} {a : Nat} (b : Byte) (h : wf m = true) (ha : a < Config.memSize) :
    wf (write m a b) = true := by
  unfold write
  split
  · exact wfFrom_erase h
  · exact wfFrom_insert h (Nat.zero_le a) ha ‹_›

/-- A range store inside memory keeps the canonical form. -/
theorem wf_writeRange {m : List Host.Cell} {a : Nat} {bytes : List Byte} (h : wf m = true)
    (ha : a + bytes.length ≤ Config.memSize) : wf (writeRange m a bytes) = true := by
  induction bytes generalizing m a with
  | nil => exact h
  | cons b rest ih =>
    simp only [List.length_cons] at ha
    exact ih (wf_write b h (by omega)) (by omega)

/-! ### Reading after writing -/

theorem read_insert (m : List Host.Cell) (a a' : Nat) (b : Byte) :
    read (insert m a b) a' = if a' = a then b else read m a' := by
  induction m with
  | nil => simp [insert, read, eq_comm]
  | cons c rest ih =>
    obtain ⟨k, c⟩ := c
    unfold insert
    split
    · rename_i hk
      subst hk
      simp only [read, eq_comm (a := a')]
      split <;> rfl
    · split
      · simp only [read, eq_comm (a := a')]
      · rename_i hk _
        simp only [read, ih]
        by_cases h : k = a'
        · have hne : a' ≠ a := fun e => hk (e ▸ h.symm)
          simp [h, hne]
        · simp [h]

theorem read_erase_ne (m : List Host.Cell) {a a' : Nat} (hne : a' ≠ a) : read (erase m a) a' = read m a' := by
  induction m with
  | nil => rfl
  | cons c rest ih =>
    obtain ⟨k, c⟩ := c
    unfold erase
    split
    · subst_vars; rw [read, if_neg (Ne.symm hne)]
    · simp only [read, ih]

theorem read_erase_same {m : List Host.Cell} {lo a : Nat} (h : wfFrom lo m = true) :
    read (erase m a) a = initialByte a := by
  induction m generalizing lo with
  | nil => rfl
  | cons c rest ih =>
    obtain ⟨k, c⟩ := c
    rw [wfFrom_cons] at h
    unfold erase
    split
    · subst_vars; exact read_below h.2.2.2 (by omega)
    · rw [read, if_neg (Ne.symm ‹_›)]; exact ih h.2.2.2

/-- A write leaves every other address as it was, in any memory. -/
theorem read_write_ne (m : List Host.Cell) {a a' : Nat} (b : Byte) (hne : a' ≠ a) :
    read (write m a b) a' = read m a' := by
  unfold write
  split
  · exact read_erase_ne m hne
  · rw [read_insert, if_neg hne]

/-- The written address reads as the byte written. -/
theorem read_write_same {m : List Host.Cell} (a : Nat) (b : Byte) (h : wf m = true) : read (write m a b) a = b := by
  unfold write
  split
  · rw [read_erase_same h]; exact Eq.symm ‹_›
  · rw [read_insert, if_pos rfl]

/-- A range store leaves every address outside the range as it was. -/
theorem read_writeRange_outside (m : List Host.Cell) {a a' : Nat} {bytes : List Byte}
    (h : a' < a ∨ a + bytes.length ≤ a') : read (writeRange m a bytes) a' = read m a' := by
  induction bytes generalizing m a with
  | nil => rfl
  | cons b rest ih =>
    simp only [List.length_cons] at h
    rw [writeRange, ih _ (by omega), read_write_ne _ _ (by omega)]

/-- The k-th byte of a range store reads back. -/
theorem read_writeRange_inside {m : List Host.Cell} {a k : Nat} {bytes : List Byte} (h : wf m = true)
    (ha : a + bytes.length ≤ Config.memSize) (hk : k < bytes.length) :
    read (writeRange m a bytes) (a + k) = bytes[k] := by
  induction bytes generalizing m a k with
  | nil => exact absurd hk (by simp)
  | cons b rest ih =>
    simp only [List.length_cons] at ha hk
    rw [writeRange]
    cases k with
    | zero =>
      rw [read_writeRange_outside _ (by omega)]
      exact read_write_same a b h
    | succ k =>
      have hin := ih (k := k) (a := a + 1) (wf_write b h (show a < Config.memSize by omega)) (by omega) (by omega)
      rw [show a + (k + 1) = a + 1 + k by omega, hin]
      rfl

/-! ### Ranges -/

@[simp] theorem length_readRange (m : List Host.Cell) (a count : Nat) : (readRange m a count).length = count := by
  induction count generalizing a with
  | zero => rfl
  | succ n ih => simp [readRange, ih]

theorem getElem_readRange (m : List Host.Cell) (a count k : Nat) (hk : k < (readRange m a count).length) :
    (readRange m a count)[k] = read m (a + k) := by
  induction count generalizing a k with
  | zero => simp [readRange] at hk
  | succ n ih =>
    cases k with
    | zero => rfl
    | succ k =>
      simp only [readRange, List.getElem_cons_succ]
      rw [ih, show a + 1 + k = a + (k + 1) by omega]

/-- Two memories that read alike at every address read alike over a range. -/
theorem readRange_congr {m m' : List Host.Cell} (h : ∀ a, read m a = read m' a) (a count : Nat) :
    readRange m a count = readRange m' a count := by
  induction count generalizing a with
  | zero => rfl
  | succ n ih => simp only [readRange, h, ih]

theorem rangeFault_none {a count : Nat} (h : a + count ≤ 4096) : rangeFault a count = none := if_pos h

theorem rangeFault_some {a count : Nat} (h : 4096 < a + count) :
    rangeFault a count = some (.outOfBounds (max a 4096)) := if_neg (by simp only [Config.memSize]; omega)

end Sys2Proof.Machine.Memory
end

