-- ==== Sys2Proof/Laws/State.lean ====
section
/-!
SUPPORT. One lemma for each field and each update of State, true by rfl: no later proof unfolds a record update.
-/
namespace Sys2Proof.Machine

/-! ### State.setReg -/

@[simp] theorem State.setReg_i (s : State) (x : Nibble) (b : Byte) : (s.setReg x b).i = s.i := rfl
@[simp] theorem State.setReg_dt (s : State) (x : Nibble) (b : Byte) : (s.setReg x b).dt = s.dt := rfl
@[simp] theorem State.setReg_st (s : State) (x : Nibble) (b : Byte) : (s.setReg x b).st = s.st := rfl
@[simp] theorem State.setReg_pc (s : State) (x : Nibble) (b : Byte) : (s.setReg x b).pc = s.pc := rfl
@[simp] theorem State.setReg_sp (s : State) (x : Nibble) (b : Byte) : (s.setReg x b).sp = s.sp := rfl
@[simp] theorem State.setReg_stack (s : State) (x : Nibble) (b : Byte) : (s.setReg x b).stack = s.stack := rfl
@[simp] theorem State.setReg_mem (s : State) (x : Nibble) (b : Byte) : (s.setReg x b).mem = s.mem := rfl
@[simp] theorem State.setReg_runState (s : State) (x : Nibble) (b : Byte) : (s.setReg x b).runState = s.runState := rfl
@[simp] theorem State.setReg_display (s : State) (x : Nibble) (b : Byte) : (s.setReg x b).display = s.display := rfl
@[simp] theorem State.setReg_draws (s : State) (x : Nibble) (b : Byte) : (s.setReg x b).draws = s.draws := rfl
@[simp] theorem State.setReg_turn (s : State) (x : Nibble) (b : Byte) : (s.setReg x b).turn = s.turn := rfl
theorem State.reg_setReg (s : State) (x y : Nibble) (b : Byte) :
    (s.setReg x b).reg y = if y = x then b else s.reg y := by
  simp only [State.setReg, State.reg, Vector.getElem_set, BitVec.toNat_inj, eq_comm]
@[simp] theorem State.setReg_reg_same (s : State) (x : Nibble) (b : Byte) : (s.setReg x b).reg x = b := by
  simp [State.reg_setReg]
@[simp] theorem State.setReg_stackSlot (s : State) (x : Nibble) (b : Byte) (j : Nibble) : (s.setReg x b).stackSlot j = s.stackSlot j := rfl

/-! ### State.setStackSlot -/

@[simp] theorem State.setStackSlot_v (s : State) (k : Nibble) (w : Word) : (s.setStackSlot k w).v = s.v := rfl
@[simp] theorem State.setStackSlot_i (s : State) (k : Nibble) (w : Word) : (s.setStackSlot k w).i = s.i := rfl
@[simp] theorem State.setStackSlot_dt (s : State) (k : Nibble) (w : Word) : (s.setStackSlot k w).dt = s.dt := rfl
@[simp] theorem State.setStackSlot_st (s : State) (k : Nibble) (w : Word) : (s.setStackSlot k w).st = s.st := rfl
@[simp] theorem State.setStackSlot_pc (s : State) (k : Nibble) (w : Word) : (s.setStackSlot k w).pc = s.pc := rfl
@[simp] theorem State.setStackSlot_sp (s : State) (k : Nibble) (w : Word) : (s.setStackSlot k w).sp = s.sp := rfl
@[simp] theorem State.setStackSlot_mem (s : State) (k : Nibble) (w : Word) : (s.setStackSlot k w).mem = s.mem := rfl
@[simp] theorem State.setStackSlot_runState (s : State) (k : Nibble) (w : Word) : (s.setStackSlot k w).runState = s.runState := rfl
@[simp] theorem State.setStackSlot_display (s : State) (k : Nibble) (w : Word) : (s.setStackSlot k w).display = s.display := rfl
@[simp] theorem State.setStackSlot_draws (s : State) (k : Nibble) (w : Word) : (s.setStackSlot k w).draws = s.draws := rfl
@[simp] theorem State.setStackSlot_turn (s : State) (k : Nibble) (w : Word) : (s.setStackSlot k w).turn = s.turn := rfl
@[simp] theorem State.setStackSlot_reg (s : State) (k : Nibble) (w : Word) (y : Nibble) : (s.setStackSlot k w).reg y = s.reg y := rfl
theorem State.stackSlot_setStackSlot (s : State) (k j : Nibble) (w : Word) :
    (s.setStackSlot k w).stackSlot j = if j = k then w else s.stackSlot j := by
  simp only [State.setStackSlot, State.stackSlot, Vector.getElem_set, BitVec.toNat_inj, eq_comm]
@[simp] theorem State.setStackSlot_stackSlot_same (s : State) (k : Nibble) (w : Word) :
    (s.setStackSlot k w).stackSlot k = w := by
  simp [State.stackSlot_setStackSlot]

/-! ### State.setSp -/

@[simp] theorem State.setSp_v (s : State) (k : Nibble) : (s.setSp k).v = s.v := rfl
@[simp] theorem State.setSp_i (s : State) (k : Nibble) : (s.setSp k).i = s.i := rfl
@[simp] theorem State.setSp_dt (s : State) (k : Nibble) : (s.setSp k).dt = s.dt := rfl
@[simp] theorem State.setSp_st (s : State) (k : Nibble) : (s.setSp k).st = s.st := rfl
@[simp] theorem State.setSp_pc (s : State) (k : Nibble) : (s.setSp k).pc = s.pc := rfl
@[simp] theorem State.setSp_sp (s : State) (k : Nibble) : (s.setSp k).sp = k := rfl
@[simp] theorem State.setSp_stack (s : State) (k : Nibble) : (s.setSp k).stack = s.stack := rfl
@[simp] theorem State.setSp_mem (s : State) (k : Nibble) : (s.setSp k).mem = s.mem := rfl
@[simp] theorem State.setSp_runState (s : State) (k : Nibble) : (s.setSp k).runState = s.runState := rfl
@[simp] theorem State.setSp_display (s : State) (k : Nibble) : (s.setSp k).display = s.display := rfl
@[simp] theorem State.setSp_draws (s : State) (k : Nibble) : (s.setSp k).draws = s.draws := rfl
@[simp] theorem State.setSp_turn (s : State) (k : Nibble) : (s.setSp k).turn = s.turn := rfl
@[simp] theorem State.setSp_reg (s : State) (k : Nibble) (y : Nibble) : (s.setSp k).reg y = s.reg y := rfl
@[simp] theorem State.setSp_stackSlot (s : State) (k : Nibble) (j : Nibble) : (s.setSp k).stackSlot j = s.stackSlot j := rfl

/-! ### State.setPc -/

@[simp] theorem State.setPc_v (s : State) (w : Word) : (s.setPc w).v = s.v := rfl
@[simp] theorem State.setPc_i (s : State) (w : Word) : (s.setPc w).i = s.i := rfl
@[simp] theorem State.setPc_dt (s : State) (w : Word) : (s.setPc w).dt = s.dt := rfl
@[simp] theorem State.setPc_st (s : State) (w : Word) : (s.setPc w).st = s.st := rfl
@[simp] theorem State.setPc_pc (s : State) (w : Word) : (s.setPc w).pc = w := rfl
@[simp] theorem State.setPc_sp (s : State) (w : Word) : (s.setPc w).sp = s.sp := rfl
@[simp] theorem State.setPc_stack (s : State) (w : Word) : (s.setPc w).stack = s.stack := rfl
@[simp] theorem State.setPc_mem (s : State) (w : Word) : (s.setPc w).mem = s.mem := rfl
@[simp] theorem State.setPc_runState (s : State) (w : Word) : (s.setPc w).runState = s.runState := rfl
@[simp] theorem State.setPc_display (s : State) (w : Word) : (s.setPc w).display = s.display := rfl
@[simp] theorem State.setPc_draws (s : State) (w : Word) : (s.setPc w).draws = s.draws := rfl
@[simp] theorem State.setPc_turn (s : State) (w : Word) : (s.setPc w).turn = s.turn := rfl
@[simp] theorem State.setPc_reg (s : State) (w : Word) (y : Nibble) : (s.setPc w).reg y = s.reg y := rfl
@[simp] theorem State.setPc_stackSlot (s : State) (w : Word) (j : Nibble) : (s.setPc w).stackSlot j = s.stackSlot j := rfl

/-! ### State.setI -/

@[simp] theorem State.setI_v (s : State) (w : Word) : (s.setI w).v = s.v := rfl
@[simp] theorem State.setI_i (s : State) (w : Word) : (s.setI w).i = w := rfl
@[simp] theorem State.setI_dt (s : State) (w : Word) : (s.setI w).dt = s.dt := rfl
@[simp] theorem State.setI_st (s : State) (w : Word) : (s.setI w).st = s.st := rfl
@[simp] theorem State.setI_pc (s : State) (w : Word) : (s.setI w).pc = s.pc := rfl
@[simp] theorem State.setI_sp (s : State) (w : Word) : (s.setI w).sp = s.sp := rfl
@[simp] theorem State.setI_stack (s : State) (w : Word) : (s.setI w).stack = s.stack := rfl
@[simp] theorem State.setI_mem (s : State) (w : Word) : (s.setI w).mem = s.mem := rfl
@[simp] theorem State.setI_runState (s : State) (w : Word) : (s.setI w).runState = s.runState := rfl
@[simp] theorem State.setI_display (s : State) (w : Word) : (s.setI w).display = s.display := rfl
@[simp] theorem State.setI_draws (s : State) (w : Word) : (s.setI w).draws = s.draws := rfl
@[simp] theorem State.setI_turn (s : State) (w : Word) : (s.setI w).turn = s.turn := rfl
@[simp] theorem State.setI_reg (s : State) (w : Word) (y : Nibble) : (s.setI w).reg y = s.reg y := rfl
@[simp] theorem State.setI_stackSlot (s : State) (w : Word) (j : Nibble) : (s.setI w).stackSlot j = s.stackSlot j := rfl

/-! ### State.setDt -/

@[simp] theorem State.setDt_v (s : State) (b : Byte) : (s.setDt b).v = s.v := rfl
@[simp] theorem State.setDt_i (s : State) (b : Byte) : (s.setDt b).i = s.i := rfl
@[simp] theorem State.setDt_dt (s : State) (b : Byte) : (s.setDt b).dt = b := rfl
@[simp] theorem State.setDt_st (s : State) (b : Byte) : (s.setDt b).st = s.st := rfl
@[simp] theorem State.setDt_pc (s : State) (b : Byte) : (s.setDt b).pc = s.pc := rfl
@[simp] theorem State.setDt_sp (s : State) (b : Byte) : (s.setDt b).sp = s.sp := rfl
@[simp] theorem State.setDt_stack (s : State) (b : Byte) : (s.setDt b).stack = s.stack := rfl
@[simp] theorem State.setDt_mem (s : State) (b : Byte) : (s.setDt b).mem = s.mem := rfl
@[simp] theorem State.setDt_runState (s : State) (b : Byte) : (s.setDt b).runState = s.runState := rfl
@[simp] theorem State.setDt_display (s : State) (b : Byte) : (s.setDt b).display = s.display := rfl
@[simp] theorem State.setDt_draws (s : State) (b : Byte) : (s.setDt b).draws = s.draws := rfl
@[simp] theorem State.setDt_turn (s : State) (b : Byte) : (s.setDt b).turn = s.turn := rfl
@[simp] theorem State.setDt_reg (s : State) (b : Byte) (y : Nibble) : (s.setDt b).reg y = s.reg y := rfl
@[simp] theorem State.setDt_stackSlot (s : State) (b : Byte) (j : Nibble) : (s.setDt b).stackSlot j = s.stackSlot j := rfl

/-! ### State.setSt -/

@[simp] theorem State.setSt_v (s : State) (b : Byte) : (s.setSt b).v = s.v := rfl
@[simp] theorem State.setSt_i (s : State) (b : Byte) : (s.setSt b).i = s.i := rfl
@[simp] theorem State.setSt_dt (s : State) (b : Byte) : (s.setSt b).dt = s.dt := rfl
@[simp] theorem State.setSt_st (s : State) (b : Byte) : (s.setSt b).st = b := rfl
@[simp] theorem State.setSt_pc (s : State) (b : Byte) : (s.setSt b).pc = s.pc := rfl
@[simp] theorem State.setSt_sp (s : State) (b : Byte) : (s.setSt b).sp = s.sp := rfl
@[simp] theorem State.setSt_stack (s : State) (b : Byte) : (s.setSt b).stack = s.stack := rfl
@[simp] theorem State.setSt_mem (s : State) (b : Byte) : (s.setSt b).mem = s.mem := rfl
@[simp] theorem State.setSt_runState (s : State) (b : Byte) : (s.setSt b).runState = s.runState := rfl
@[simp] theorem State.setSt_display (s : State) (b : Byte) : (s.setSt b).display = s.display := rfl
@[simp] theorem State.setSt_draws (s : State) (b : Byte) : (s.setSt b).draws = s.draws := rfl
@[simp] theorem State.setSt_turn (s : State) (b : Byte) : (s.setSt b).turn = s.turn := rfl
@[simp] theorem State.setSt_reg (s : State) (b : Byte) (y : Nibble) : (s.setSt b).reg y = s.reg y := rfl
@[simp] theorem State.setSt_stackSlot (s : State) (b : Byte) (j : Nibble) : (s.setSt b).stackSlot j = s.stackSlot j := rfl

/-! ### State.setMem -/

@[simp] theorem State.setMem_v (s : State) (m : List Host.Cell) : (s.setMem m).v = s.v := rfl
@[simp] theorem State.setMem_i (s : State) (m : List Host.Cell) : (s.setMem m).i = s.i := rfl
@[simp] theorem State.setMem_dt (s : State) (m : List Host.Cell) : (s.setMem m).dt = s.dt := rfl
@[simp] theorem State.setMem_st (s : State) (m : List Host.Cell) : (s.setMem m).st = s.st := rfl
@[simp] theorem State.setMem_pc (s : State) (m : List Host.Cell) : (s.setMem m).pc = s.pc := rfl
@[simp] theorem State.setMem_sp (s : State) (m : List Host.Cell) : (s.setMem m).sp = s.sp := rfl
@[simp] theorem State.setMem_stack (s : State) (m : List Host.Cell) : (s.setMem m).stack = s.stack := rfl
@[simp] theorem State.setMem_mem (s : State) (m : List Host.Cell) : (s.setMem m).mem = m := rfl
@[simp] theorem State.setMem_runState (s : State) (m : List Host.Cell) : (s.setMem m).runState = s.runState := rfl
@[simp] theorem State.setMem_display (s : State) (m : List Host.Cell) : (s.setMem m).display = s.display := rfl
@[simp] theorem State.setMem_draws (s : State) (m : List Host.Cell) : (s.setMem m).draws = s.draws := rfl
@[simp] theorem State.setMem_turn (s : State) (m : List Host.Cell) : (s.setMem m).turn = s.turn := rfl
@[simp] theorem State.setMem_reg (s : State) (m : List Host.Cell) (y : Nibble) : (s.setMem m).reg y = s.reg y := rfl
@[simp] theorem State.setMem_stackSlot (s : State) (m : List Host.Cell) (j : Nibble) : (s.setMem m).stackSlot j = s.stackSlot j := rfl

/-! ### State.setDisplay -/

@[simp] theorem State.setDisplay_v (s : State) (d : Display) : (s.setDisplay d).v = s.v := rfl
@[simp] theorem State.setDisplay_i (s : State) (d : Display) : (s.setDisplay d).i = s.i := rfl
@[simp] theorem State.setDisplay_dt (s : State) (d : Display) : (s.setDisplay d).dt = s.dt := rfl
@[simp] theorem State.setDisplay_st (s : State) (d : Display) : (s.setDisplay d).st = s.st := rfl
@[simp] theorem State.setDisplay_pc (s : State) (d : Display) : (s.setDisplay d).pc = s.pc := rfl
@[simp] theorem State.setDisplay_sp (s : State) (d : Display) : (s.setDisplay d).sp = s.sp := rfl
@[simp] theorem State.setDisplay_stack (s : State) (d : Display) : (s.setDisplay d).stack = s.stack := rfl
@[simp] theorem State.setDisplay_mem (s : State) (d : Display) : (s.setDisplay d).mem = s.mem := rfl
@[simp] theorem State.setDisplay_runState (s : State) (d : Display) : (s.setDisplay d).runState = s.runState := rfl
@[simp] theorem State.setDisplay_display (s : State) (d : Display) : (s.setDisplay d).display = d := rfl
@[simp] theorem State.setDisplay_draws (s : State) (d : Display) : (s.setDisplay d).draws = s.draws := rfl
@[simp] theorem State.setDisplay_turn (s : State) (d : Display) : (s.setDisplay d).turn = s.turn := rfl
@[simp] theorem State.setDisplay_reg (s : State) (d : Display) (y : Nibble) : (s.setDisplay d).reg y = s.reg y := rfl
@[simp] theorem State.setDisplay_stackSlot (s : State) (d : Display) (j : Nibble) : (s.setDisplay d).stackSlot j = s.stackSlot j := rfl

/-! ### State.countDraw -/

@[simp] theorem State.countDraw_v (s : State) : (s.countDraw).v = s.v := rfl
@[simp] theorem State.countDraw_i (s : State) : (s.countDraw).i = s.i := rfl
@[simp] theorem State.countDraw_dt (s : State) : (s.countDraw).dt = s.dt := rfl
@[simp] theorem State.countDraw_st (s : State) : (s.countDraw).st = s.st := rfl
@[simp] theorem State.countDraw_pc (s : State) : (s.countDraw).pc = s.pc := rfl
@[simp] theorem State.countDraw_sp (s : State) : (s.countDraw).sp = s.sp := rfl
@[simp] theorem State.countDraw_stack (s : State) : (s.countDraw).stack = s.stack := rfl
@[simp] theorem State.countDraw_mem (s : State) : (s.countDraw).mem = s.mem := rfl
@[simp] theorem State.countDraw_runState (s : State) : (s.countDraw).runState = s.runState := rfl
@[simp] theorem State.countDraw_display (s : State) : (s.countDraw).display = s.display := rfl
@[simp] theorem State.countDraw_draws (s : State) : (s.countDraw).draws = s.draws + 1 := rfl
@[simp] theorem State.countDraw_turn (s : State) : (s.countDraw).turn = s.turn := rfl
@[simp] theorem State.countDraw_reg (s : State) (y : Nibble) : (s.countDraw).reg y = s.reg y := rfl
@[simp] theorem State.countDraw_stackSlot (s : State) (j : Nibble) : (s.countDraw).stackSlot j = s.stackSlot j := rfl

/-! ### State.countTurn -/

@[simp] theorem State.countTurn_v (s : State) : (s.countTurn).v = s.v := rfl
@[simp] theorem State.countTurn_i (s : State) : (s.countTurn).i = s.i := rfl
@[simp] theorem State.countTurn_dt (s : State) : (s.countTurn).dt = s.dt := rfl
@[simp] theorem State.countTurn_st (s : State) : (s.countTurn).st = s.st := rfl
@[simp] theorem State.countTurn_pc (s : State) : (s.countTurn).pc = s.pc := rfl
@[simp] theorem State.countTurn_sp (s : State) : (s.countTurn).sp = s.sp := rfl
@[simp] theorem State.countTurn_stack (s : State) : (s.countTurn).stack = s.stack := rfl
@[simp] theorem State.countTurn_mem (s : State) : (s.countTurn).mem = s.mem := rfl
@[simp] theorem State.countTurn_runState (s : State) : (s.countTurn).runState = s.runState := rfl
@[simp] theorem State.countTurn_display (s : State) : (s.countTurn).display = s.display := rfl
@[simp] theorem State.countTurn_draws (s : State) : (s.countTurn).draws = s.draws := rfl
@[simp] theorem State.countTurn_turn (s : State) : (s.countTurn).turn = s.turn + 1 := rfl
@[simp] theorem State.countTurn_reg (s : State) (y : Nibble) : (s.countTurn).reg y = s.reg y := rfl
@[simp] theorem State.countTurn_stackSlot (s : State) (j : Nibble) : (s.countTurn).stackSlot j = s.stackSlot j := rfl

/-! ### State.next -/

@[simp] theorem State.next_v (s : State) : (s.next).v = s.v := rfl
@[simp] theorem State.next_i (s : State) : (s.next).i = s.i := rfl
@[simp] theorem State.next_dt (s : State) : (s.next).dt = s.dt := rfl
@[simp] theorem State.next_st (s : State) : (s.next).st = s.st := rfl
@[simp] theorem State.next_pc (s : State) : (s.next).pc = s.pc + 2#16 := rfl
@[simp] theorem State.next_sp (s : State) : (s.next).sp = s.sp := rfl
@[simp] theorem State.next_stack (s : State) : (s.next).stack = s.stack := rfl
@[simp] theorem State.next_mem (s : State) : (s.next).mem = s.mem := rfl
@[simp] theorem State.next_runState (s : State) : (s.next).runState = s.runState := rfl
@[simp] theorem State.next_display (s : State) : (s.next).display = s.display := rfl
@[simp] theorem State.next_draws (s : State) : (s.next).draws = s.draws := rfl
@[simp] theorem State.next_turn (s : State) : (s.next).turn = s.turn := rfl
@[simp] theorem State.next_reg (s : State) (y : Nibble) : (s.next).reg y = s.reg y := rfl
@[simp] theorem State.next_stackSlot (s : State) (j : Nibble) : (s.next).stackSlot j = s.stackSlot j := rfl

/-! ### raise -/

@[simp] theorem raise_v (s : State) (r : HaltReason) : (raise r s).v = s.v := rfl
@[simp] theorem raise_i (s : State) (r : HaltReason) : (raise r s).i = s.i := rfl
@[simp] theorem raise_dt (s : State) (r : HaltReason) : (raise r s).dt = s.dt := rfl
@[simp] theorem raise_st (s : State) (r : HaltReason) : (raise r s).st = s.st := rfl
@[simp] theorem raise_pc (s : State) (r : HaltReason) : (raise r s).pc = s.pc := rfl
@[simp] theorem raise_sp (s : State) (r : HaltReason) : (raise r s).sp = s.sp := rfl
@[simp] theorem raise_stack (s : State) (r : HaltReason) : (raise r s).stack = s.stack := rfl
@[simp] theorem raise_mem (s : State) (r : HaltReason) : (raise r s).mem = s.mem := rfl
@[simp] theorem raise_runState (s : State) (r : HaltReason) : (raise r s).runState = .halted r := rfl
@[simp] theorem raise_display (s : State) (r : HaltReason) : (raise r s).display = s.display := rfl
@[simp] theorem raise_draws (s : State) (r : HaltReason) : (raise r s).draws = s.draws := rfl
@[simp] theorem raise_turn (s : State) (r : HaltReason) : (raise r s).turn = s.turn := rfl
@[simp] theorem raise_reg (s : State) (r : HaltReason) (y : Nibble) : (raise r s).reg y = s.reg y := rfl
@[simp] theorem raise_stackSlot (s : State) (r : HaltReason) (j : Nibble) : (raise r s).stackSlot j = s.stackSlot j := rfl

/-! ### timerTick -/

@[simp] theorem timerTick_v (s : State) : (timerTick s).v = s.v := rfl
@[simp] theorem timerTick_i (s : State) : (timerTick s).i = s.i := rfl
@[simp] theorem timerTick_dt (s : State) : (timerTick s).dt = decrementIfPositive s.dt := rfl
@[simp] theorem timerTick_st (s : State) : (timerTick s).st = decrementIfPositive s.st := rfl
@[simp] theorem timerTick_pc (s : State) : (timerTick s).pc = s.pc := rfl
@[simp] theorem timerTick_sp (s : State) : (timerTick s).sp = s.sp := rfl
@[simp] theorem timerTick_stack (s : State) : (timerTick s).stack = s.stack := rfl
@[simp] theorem timerTick_mem (s : State) : (timerTick s).mem = s.mem := rfl
@[simp] theorem timerTick_runState (s : State) : (timerTick s).runState = s.runState := rfl
@[simp] theorem timerTick_display (s : State) : (timerTick s).display = s.display := rfl
@[simp] theorem timerTick_draws (s : State) : (timerTick s).draws = s.draws := rfl
@[simp] theorem timerTick_turn (s : State) : (timerTick s).turn = s.turn := rfl
@[simp] theorem timerTick_reg (s : State) (y : Nibble) : (timerTick s).reg y = s.reg y := rfl
@[simp] theorem timerTick_stackSlot (s : State) (j : Nibble) : (timerTick s).stackSlot j = s.stackSlot j := rfl

/-! ### timerTicks -/

@[simp] theorem timerTicks_v (s : State) (n : Nat) : (timerTicks n s).v = s.v := rfl
@[simp] theorem timerTicks_i (s : State) (n : Nat) : (timerTicks n s).i = s.i := rfl
@[simp] theorem timerTicks_dt (s : State) (n : Nat) : (timerTicks n s).dt = drain n s.dt := rfl
@[simp] theorem timerTicks_st (s : State) (n : Nat) : (timerTicks n s).st = drain n s.st := rfl
@[simp] theorem timerTicks_pc (s : State) (n : Nat) : (timerTicks n s).pc = s.pc := rfl
@[simp] theorem timerTicks_sp (s : State) (n : Nat) : (timerTicks n s).sp = s.sp := rfl
@[simp] theorem timerTicks_stack (s : State) (n : Nat) : (timerTicks n s).stack = s.stack := rfl
@[simp] theorem timerTicks_mem (s : State) (n : Nat) : (timerTicks n s).mem = s.mem := rfl
@[simp] theorem timerTicks_runState (s : State) (n : Nat) : (timerTicks n s).runState = s.runState := rfl
@[simp] theorem timerTicks_display (s : State) (n : Nat) : (timerTicks n s).display = s.display := rfl
@[simp] theorem timerTicks_draws (s : State) (n : Nat) : (timerTicks n s).draws = s.draws := rfl
@[simp] theorem timerTicks_turn (s : State) (n : Nat) : (timerTicks n s).turn = s.turn := rfl
@[simp] theorem timerTicks_reg (s : State) (n : Nat) (y : Nibble) : (timerTicks n s).reg y = s.reg y := rfl
@[simp] theorem timerTicks_stackSlot (s : State) (n : Nat) (j : Nibble) : (timerTicks n s).stackSlot j = s.stackSlot j := rfl

/-! ### betweenTicks -/

@[simp] theorem betweenTicks_v (s : State) : (betweenTicks s).v = s.v := rfl
@[simp] theorem betweenTicks_i (s : State) : (betweenTicks s).i = s.i := rfl
@[simp] theorem betweenTicks_dt (s : State) : (betweenTicks s).dt = drain (timerTicksBefore s.turn) s.dt := rfl
@[simp] theorem betweenTicks_st (s : State) : (betweenTicks s).st = drain (timerTicksBefore s.turn) s.st := rfl
@[simp] theorem betweenTicks_pc (s : State) : (betweenTicks s).pc = s.pc := rfl
@[simp] theorem betweenTicks_sp (s : State) : (betweenTicks s).sp = s.sp := rfl
@[simp] theorem betweenTicks_stack (s : State) : (betweenTicks s).stack = s.stack := rfl
@[simp] theorem betweenTicks_mem (s : State) : (betweenTicks s).mem = s.mem := rfl
@[simp] theorem betweenTicks_runState (s : State) : (betweenTicks s).runState = s.runState := rfl
@[simp] theorem betweenTicks_display (s : State) : (betweenTicks s).display = s.display := rfl
@[simp] theorem betweenTicks_draws (s : State) : (betweenTicks s).draws = s.draws := rfl
@[simp] theorem betweenTicks_turn (s : State) : (betweenTicks s).turn = s.turn + 1 := rfl
@[simp] theorem betweenTicks_reg (s : State) (y : Nibble) : (betweenTicks s).reg y = s.reg y := rfl
@[simp] theorem betweenTicks_stackSlot (s : State) (j : Nibble) : (betweenTicks s).stackSlot j = s.stackSlot j := rfl

end Sys2Proof.Machine
end

