-- ==== Sys2Proof/Laws/Ops.lean ====
section
/-!
SUPPORT. One lemma for each shared operation: everything it can do (40_execution_loop.md, 60_exceptions.md).
-/
namespace Sys2Proof.Machine

/-! ### Halting -/

theorem raise_haltsWith (r : HaltReason) (s : State) : HaltsWith r s (raise r s) :=
  ⟨rfl, rfl, fun _ _ => rfl, rfl, ⟨rfl, rfl⟩, ⟨rfl, fun _ => rfl⟩, fun _ => rfl, rfl, ⟨rfl, rfl⟩⟩

/-- An instruction over a range either halts unchanged, the range leaving memory, or runs. -/
theorem withRange_cases (count : Nat) (s : State) (go : State → State) :
    (s.i.toNat + count ≤ 4096 ∧ withRange count s go = go s) ∨
      (4096 < s.i.toNat + count ∧ withRange count s go = raise (.outOfBounds (max s.i.toNat 4096)) s) := by
  by_cases h : s.i.toNat + count ≤ 4096
  · exact .inl ⟨h, by rw [withRange, Memory.rangeFault_none h]⟩
  · exact .inr ⟨by omega, by rw [withRange, Memory.rangeFault_some (by omega)]⟩

/-! ### Registers -/

@[simp] theorem setRegsFrom_i (s : State) (k : Nat) (bs : List Byte) : (s.setRegsFrom k bs).i = s.i := by
  induction bs generalizing s k with
  | nil => rfl
  | cons b rest ih => simp [State.setRegsFrom, ih]
@[simp] theorem setRegsFrom_dt (s : State) (k : Nat) (bs : List Byte) : (s.setRegsFrom k bs).dt = s.dt := by
  induction bs generalizing s k with
  | nil => rfl
  | cons b rest ih => simp [State.setRegsFrom, ih]
@[simp] theorem setRegsFrom_st (s : State) (k : Nat) (bs : List Byte) : (s.setRegsFrom k bs).st = s.st := by
  induction bs generalizing s k with
  | nil => rfl
  | cons b rest ih => simp [State.setRegsFrom, ih]
@[simp] theorem setRegsFrom_pc (s : State) (k : Nat) (bs : List Byte) : (s.setRegsFrom k bs).pc = s.pc := by
  induction bs generalizing s k with
  | nil => rfl
  | cons b rest ih => simp [State.setRegsFrom, ih]
@[simp] theorem setRegsFrom_sp (s : State) (k : Nat) (bs : List Byte) : (s.setRegsFrom k bs).sp = s.sp := by
  induction bs generalizing s k with
  | nil => rfl
  | cons b rest ih => simp [State.setRegsFrom, ih]
@[simp] theorem setRegsFrom_stack (s : State) (k : Nat) (bs : List Byte) : (s.setRegsFrom k bs).stack = s.stack := by
  induction bs generalizing s k with
  | nil => rfl
  | cons b rest ih => simp [State.setRegsFrom, ih]
@[simp] theorem setRegsFrom_stackSlot (s : State) (k : Nat) (bs : List Byte) (j : Nibble) :
    (s.setRegsFrom k bs).stackSlot j = s.stackSlot j := by
  induction bs generalizing s k with
  | nil => rfl
  | cons b rest ih => simp [State.setRegsFrom, ih]
@[simp] theorem setRegsFrom_mem (s : State) (k : Nat) (bs : List Byte) : (s.setRegsFrom k bs).mem = s.mem := by
  induction bs generalizing s k with
  | nil => rfl
  | cons b rest ih => simp [State.setRegsFrom, ih]
@[simp] theorem setRegsFrom_runState (s : State) (k : Nat) (bs : List Byte) :
    (s.setRegsFrom k bs).runState = s.runState := by
  induction bs generalizing s k with
  | nil => rfl
  | cons b rest ih => simp [State.setRegsFrom, ih]
@[simp] theorem setRegsFrom_display (s : State) (k : Nat) (bs : List Byte) :
    (s.setRegsFrom k bs).display = s.display := by
  induction bs generalizing s k with
  | nil => rfl
  | cons b rest ih => simp [State.setRegsFrom, ih]
@[simp] theorem setRegsFrom_draws (s : State) (k : Nat) (bs : List Byte) : (s.setRegsFrom k bs).draws = s.draws := by
  induction bs generalizing s k with
  | nil => rfl
  | cons b rest ih => simp [State.setRegsFrom, ih]
@[simp] theorem setRegsFrom_turn (s : State) (k : Nat) (bs : List Byte) : (s.setRegsFrom k bs).turn = s.turn := by
  induction bs generalizing s k with
  | nil => rfl
  | cons b rest ih => simp [State.setRegsFrom, ih]

/-- `setRegsFrom k` writes register `k + j` with the j-th byte and no other register. -/
theorem setRegsFrom_reg (s : State) (k : Nat) (bs : List Byte) (hk : k + bs.length ≤ 16) (r : Nibble) :
    (s.setRegsFrom k bs).reg r =
      if h : k ≤ r.toNat ∧ r.toNat - k < bs.length then bs[r.toNat - k]'h.2 else s.reg r := by
  induction bs generalizing s k with
  | nil => simp [State.setRegsFrom]
  | cons b rest ih =>
    simp only [List.length_cons] at hk
    rw [State.setRegsFrom, ih _ _ (by omega), State.reg_setReg]
    have hkr : r = BitVec.ofNat 4 k ↔ r.toNat = k := by
      rw [← BitVec.toNat_inj, BitVec.toNat_ofNat, Nat.mod_eq_of_lt (by omega)]
    simp only [hkr, List.length_cons]
    rcases Nat.lt_trichotomy r.toNat k with h | h | h
    · rw [dif_neg (by omega), dif_neg (by omega), if_neg (by omega)]
    · rw [dif_neg (by omega), dif_pos (by omega), if_pos h]
      simp [h]
    · have he : r.toNat - k = (r.toNat - (k + 1)) + 1 := by omega
      by_cases hl : r.toNat - (k + 1) < rest.length
      · rw [dif_pos ⟨by omega, hl⟩, dif_pos ⟨by omega, by omega⟩]
        simp only [he, List.getElem_cons_succ]
      · rw [dif_neg (by omega), dif_neg (by omega), if_neg (by omega)]

theorem length_regsUpTo (s : State) (x : Nibble) : (s.regsUpTo x).length = x.toNat + 1 := by
  have := x.isLt
  simp only [State.regsUpTo, List.length_take, Vector.length_toList]
  omega

theorem getElem_regsUpTo (s : State) (x : Nibble) (k : Nat) (hk : k < (s.regsUpTo x).length) :
    (s.regsUpTo x)[k] = s.reg (BitVec.ofNat 4 k) := by
  have hk' : k < 16 := by rw [length_regsUpTo] at hk; have := x.isLt; omega
  simp [State.regsUpTo, State.reg, Nat.mod_eq_of_lt hk']

/-! ### Timers -/

theorem decrementIfPositive_toNat (t : Byte) : (decrementIfPositive t).toNat = t.toNat - 1 := by
  unfold decrementIfPositive
  split
  · subst_vars; rfl
  · rename_i h
    have : t.toNat ≠ 0 := fun h0 => h (BitVec.eq_of_toNat_eq h0)
    rw [BitVec.toNat_sub_of_le (by rw [BitVec.le_def]; simp only [BitVec.toNat_ofNat]; omega)]
    rfl

theorem drain_toNat (k : Nat) (t : Byte) : (drain k t).toNat = t.toNat - k := by
  have := t.isLt
  unfold drain
  split
  · subst_vars; simp
  · rw [BitVec.toNat_ofNat, Nat.mod_eq_of_lt (by omega)]

/-! ### The CPU tick -/

theorem checked_next (s : State) : checked (.next s) = .next (endOfTick s) := rfl

/-- Everything the end-of-tick check can do. -/
theorem endOfTick_cases (s : State) :
    (s.runState = .running ∧ 4096 ≤ s.pc.toNat ∧ endOfTick s = raise (.outOfBounds s.pc.toNat) s) ∨
      ((∃ r, s.runState = .halted r) ∧ endOfTick s = s) ∨
      (s.runState = .running ∧ s.pc.toNat ≤ 4095 ∧ endOfTick s = s) := by
  unfold endOfTick
  split
  · exact .inr (.inl ⟨⟨_, ‹_›⟩, rfl⟩)
  · split
    · exact .inl ⟨‹_›, ‹_›, rfl⟩
    · exact .inr (.inr ⟨‹_›, by simp only [Config.memSize] at *; omega, rfl⟩)

/-- Everything a fetch can answer (R122). -/
theorem fetch_cases (s : State) :
    (4095 ≤ s.pc.toNat ∧ fetch s = .error (.outOfBounds (max s.pc.toNat 4096))) ∨
      (s.pc.toNat ≤ 4094 ∧
        fetch s = .ok (wordOfBytes (Memory.read s.mem s.pc.toNat) (Memory.read s.mem (s.pc.toNat + 1)))) := by
  unfold fetch
  split
  · exact .inl ⟨by omega, by rw [show max s.pc.toNat 4096 = s.pc.toNat by omega]⟩
  · split
    · exact .inl ⟨by omega, by rw [show max s.pc.toNat 4096 = 4096 by omega]⟩
    · exact .inr ⟨by omega, rfl⟩

/-! ### The word the host places -/

/-- A placed word is what the next tick fetches. -/
theorem fetch_placeFetchWord (s : State) (w : Word) (h : Memory.wf s.mem = true) :
    fetch (placeFetchWord s w) = .ok w := by
  have hp : (fetchPlace s).toNat ≤ 4094 := by
    unfold fetchPlace
    split
    · omega
    · decide
  have hb : (bytesOfWord w).length = 2 := rfl
  rcases fetch_cases (placeFetchWord s w) with ⟨h1, -⟩ | ⟨-, h2⟩
  · exact absurd h1 (by change ¬ 4095 ≤ (fetchPlace s).toNat; omega)
  · rw [h2]
    change Except.ok (wordOfBytes (Memory.read (Memory.writeRange s.mem (fetchPlace s).toNat (bytesOfWord w)) ((fetchPlace s).toNat + 0))
      (Memory.read (Memory.writeRange s.mem (fetchPlace s).toNat (bytesOfWord w)) ((fetchPlace s).toNat + 1))) = _
    rw [Memory.read_writeRange_inside h (by rw [hb]; simp only [Config.memSize]; omega) (by rw [hb]; decide),
      Memory.read_writeRange_inside h (by rw [hb]; simp only [Config.memSize]; omega) (by rw [hb]; decide)]
    exact congrArg _ (wordOfBytes_bytes w)

end Sys2Proof.Machine
end

