-- ==== Sys2Proof/Laws/PerInstr.lean ====
section
/-!
SUPPORT. Laws of the instruction as written: for each constructor, its canonical word lies in its own group, so a
handler is reached only through its group and `GroupMismatch` cannot occur (R102).
-/
namespace Sys2Proof.Laws.OwnGroup

def Statement (i : Instr) : Prop := fieldGroup (encode i) = i.group

theorem cls : Statement .cls := fieldGroup_wordXKK _ _ _
theorem ret : Statement .ret := fieldGroup_wordXKK _ _ _
theorem jp (nnn : Addr) : Statement (.jp nnn) := fieldGroup_wordNNN _ _
theorem call (nnn : Addr) : Statement (.call nnn) := fieldGroup_wordNNN _ _
theorem seImm (x : Nibble) (kk : Byte) : Statement (.seImm x kk) := fieldGroup_wordXKK _ _ _
theorem sneImm (x : Nibble) (kk : Byte) : Statement (.sneImm x kk) := fieldGroup_wordXKK _ _ _
theorem seReg (x y : Nibble) : Statement (.seReg x y) := fieldGroup_wordXYN _ _ _ _
theorem ldImm (x : Nibble) (kk : Byte) : Statement (.ldImm x kk) := fieldGroup_wordXKK _ _ _
theorem addImm (x : Nibble) (kk : Byte) : Statement (.addImm x kk) := fieldGroup_wordXKK _ _ _
theorem ldReg (x y : Nibble) : Statement (.ldReg x y) := fieldGroup_wordXYN _ _ _ _
theorem orReg (x y : Nibble) : Statement (.orReg x y) := fieldGroup_wordXYN _ _ _ _
theorem andReg (x y : Nibble) : Statement (.andReg x y) := fieldGroup_wordXYN _ _ _ _
theorem xorReg (x y : Nibble) : Statement (.xorReg x y) := fieldGroup_wordXYN _ _ _ _
theorem addReg (x y : Nibble) : Statement (.addReg x y) := fieldGroup_wordXYN _ _ _ _
theorem subReg (x y : Nibble) : Statement (.subReg x y) := fieldGroup_wordXYN _ _ _ _
theorem shr (x y : Nibble) : Statement (.shr x y) := fieldGroup_wordXYN _ _ _ _
theorem subnReg (x y : Nibble) : Statement (.subnReg x y) := fieldGroup_wordXYN _ _ _ _
theorem shl (x y : Nibble) : Statement (.shl x y) := fieldGroup_wordXYN _ _ _ _
theorem sneReg (x y : Nibble) : Statement (.sneReg x y) := fieldGroup_wordXYN _ _ _ _
theorem ldI (nnn : Addr) : Statement (.ldI nnn) := fieldGroup_wordNNN _ _
theorem jpV0 (nnn : Addr) : Statement (.jpV0 nnn) := fieldGroup_wordNNN _ _
theorem rnd (x : Nibble) (kk : Byte) : Statement (.rnd x kk) := fieldGroup_wordXKK _ _ _
theorem drw (x y n : Nibble) : Statement (.drw x y n) := fieldGroup_wordXYN _ _ _ _
theorem skp (x : Nibble) : Statement (.skp x) := fieldGroup_wordXKK _ _ _
theorem sknp (x : Nibble) : Statement (.sknp x) := fieldGroup_wordXKK _ _ _
theorem ldVxDt (x : Nibble) : Statement (.ldVxDt x) := fieldGroup_wordXKK _ _ _
theorem ldVxK (x : Nibble) : Statement (.ldVxK x) := fieldGroup_wordXKK _ _ _
theorem ldDtVx (x : Nibble) : Statement (.ldDtVx x) := fieldGroup_wordXKK _ _ _
theorem ldStVx (x : Nibble) : Statement (.ldStVx x) := fieldGroup_wordXKK _ _ _
theorem addI (x : Nibble) : Statement (.addI x) := fieldGroup_wordXKK _ _ _
theorem ldF (x : Nibble) : Statement (.ldF x) := fieldGroup_wordXKK _ _ _
theorem ldB (x : Nibble) : Statement (.ldB x) := fieldGroup_wordXKK _ _ _
theorem storeRegs (x : Nibble) : Statement (.storeRegs x) := fieldGroup_wordXKK _ _ _
theorem loadRegs (x : Nibble) : Statement (.loadRegs x) := fieldGroup_wordXKK _ _ _

end Sys2Proof.Laws.OwnGroup
end

