-- ==== Sys2Proof/Laws/Schedule.lean ====
section
/-!
SUPPORT. The TIMER agent's schedule (70_reset_and_hazards.md rule R249): it ticks infinitely often, and no fair schedule
is shut out.
-/
namespace Sys2Proof.Machine

theorem le_tickTurn (gap : Nat → Nat) (k : Nat) : k ≤ tickTurn gap k := by
  induction k with
  | zero => exact Nat.zero_le _
  | succ k ih => simp only [tickTurn]; omega

/-- Ticks fall before a turn exactly where it is one of the schedule's. -/
theorem scheduledTicks_pos {gap extra : Nat → Nat} {n : Nat} :
    0 < scheduledTicks gap extra n ↔ ∃ k, tickTurn gap k = n := by
  have hany : (List.range (n + 1)).any (fun k => tickTurn gap k == n) = true ↔ ∃ k, tickTurn gap k = n := by
    rw [List.any_eq_true]
    constructor
    · rintro ⟨k, -, hk⟩
      exact ⟨k, by simpa using hk⟩
    · rintro ⟨k, rfl⟩
      exact ⟨k, List.mem_range.2 (Nat.lt_succ_of_le (le_tickTurn gap k)), by simp⟩
  rw [← hany, scheduledTicks]
  split <;> simp_all

theorem scheduledTicks_of_pos {gap extra : Nat → Nat} {n : Nat} (h : 0 < scheduledTicks gap extra n) :
    scheduledTicks gap extra n = extra n + 1 := by
  rw [scheduledTicks] at h ⊢
  split
  · rfl
  · rename_i hn
    rw [if_neg hn] at h
    exact absurd h (Nat.lt_irrefl 0)

/-- Every schedule of this form is fair: from any turn on, one comes that has a TIMER tick before it. -/
theorem scheduledTicks_fair (gap extra : Nat → Nat) (n : Nat) : ∃ m, n ≤ m ∧ 0 < scheduledTicks gap extra m :=
  ⟨tickTurn gap n, le_tickTurn gap n, scheduledTicks_pos.2 ⟨n, rfl⟩⟩

/-- Every fair schedule has this form, so the two free values admit all of them. -/
theorem exists_scheduledTicks_eq {ticks : Nat → Nat} (fair : ∀ n, ∃ m, n ≤ m ∧ 0 < ticks m) :
    ∃ gap extra, scheduledTicks gap extra = ticks := by
  have hinf : {n | 0 < ticks n}.Infinite := Set.infinite_of_not_bddAbove fun ⟨b, hb⟩ => by
    obtain ⟨m, hm, hpos⟩ := fair (b + 1)
    have := hb hpos
    omega
  let turn := Nat.nth fun n => 0 < ticks n
  let gap : Nat → Nat := fun k => match k with
    | 0 => turn 0
    | k + 1 => turn (k + 1) - (turn k + 1)
  have hturn : ∀ k, tickTurn gap k = turn k := by
    intro k
    induction k with
    | zero => rfl
    | succ k ih =>
      have := Nat.nth_strictMono hinf (Nat.lt_succ_self k)
      change turn k < turn (k + 1) at this
      simp only [tickTurn, ih, gap]
      omega
  have hpos : ∀ n, 0 < scheduledTicks gap (fun n => ticks n - 1) n ↔ 0 < ticks n := by
    intro n
    rw [scheduledTicks_pos]
    constructor
    · rintro ⟨k, rfl⟩
      rw [hturn]
      exact Nat.nth_mem_of_infinite hinf k
    · intro h
      exact ⟨Nat.count (fun n => 0 < ticks n) n, by rw [hturn]; exact Nat.nth_count h⟩
  refine ⟨gap, fun n => ticks n - 1, funext fun n => ?_⟩
  by_cases h : 0 < ticks n
  · rw [scheduledTicks_of_pos ((hpos n).2 h)]
    omega
  · have := mt (hpos n).1 h
    omega

end Sys2Proof.Machine
end

