-- ==== Sys2Proof/Laws/Step.lean ====
section
/-!
SUPPORT. Everything a step can do, said once (40_execution_loop.md rules R121 to R127), and the turn counter along a run.
-/
namespace Sys2Proof.Machine

/-- What a fetch answers does not depend on the TIMER ticks before it. -/
@[simp] theorem fetch_betweenTicks (s : State) : fetch (betweenTicks s) = fetch s := rfl

/-- The four things a step can be: no CPU tick in a halted machine, a failed fetch, a word that does not decode, and an
instruction with the end-of-tick check. -/
theorem step_cases (s : State) :
    (∃ r, s.runState = .halted r ∧ step s = .next (betweenTicks s)) ∨
      (s.runState = .running ∧ ∃ r, fetch s = .error r ∧ step s = .next (raise r (betweenTicks s))) ∨
      (s.runState = .running ∧ ∃ w e, fetch s = .ok w ∧ decode w = .error e ∧
        step s = .next (raise (decodeFailure e) (betweenTicks s))) ∨
      (∃ i, AboutToRun i s ∧ step s = checked (exec i (betweenTicks s))) := by
  have hb : (betweenTicks s).runState = s.runState := rfl
  unfold step cpuTick
  rw [fetch_betweenTicks, hb]
  cases hr : s.runState with
  | halted r => exact .inl ⟨r, rfl, rfl⟩
  | running =>
    cases hf : fetch s with
    | error r => exact .inr (.inl ⟨rfl, r, rfl, rfl⟩)
    | ok w =>
      unfold runWord
      cases hd : decode w with
      | error e => exact .inr (.inr (.inl ⟨rfl, w, e, rfl, hd, by simp only [hd]⟩))
      | ok i => exact .inr (.inr (.inr ⟨i, ⟨hr, w, hf, hd⟩, by simp only [hd]⟩))

/-- A range instruction leaves whatever both its ways leave. -/
theorem withRange_induction {P : State → Prop} {count : Nat} {s : State} {go : State → State}
    (hraise : ∀ r, P (raise r s)) (hgo : P (go s)) : P (withRange count s go) := by
  unfold withRange
  split
  · exact hraise _
  · exact hgo

/-- No instruction counts a turn. -/
theorem exec_turn {i : Instr} {s t : State} (h : exec i s = .next t) : t.turn = s.turn := by
  cases i
  case ret => simp only [exec, execRet] at h; split at h <;> cases h <;> rfl
  case call => simp only [exec, execCall] at h; split at h <;> cases h <;> rfl
  case drw => cases h; exact withRange_induction (P := (·.turn = s.turn)) (fun _ => rfl) rfl
  case ldB => cases h; exact withRange_induction (P := (·.turn = s.turn)) (fun _ => rfl) rfl
  case storeRegs => cases h; exact withRange_induction (P := (·.turn = s.turn)) (fun _ => rfl) rfl
  case loadRegs => cases h; exact withRange_induction (P := (·.turn = s.turn)) (fun _ => rfl) (by simp)
  all_goals cases h; rfl

theorem checked_turn {r : Result} {t : State} (h : checked r = .next t) : ∃ s, r = .next s ∧ t.turn = s.turn := by
  cases r with
  | next s =>
    cases h
    refine ⟨s, rfl, ?_⟩
    rcases endOfTick_cases s with ⟨-, -, he⟩ | ⟨-, he⟩ | ⟨-, -, he⟩ <;> simp [he]
  | fault => cases h
  | refused => cases h

/-- Every step is one turn. -/
theorem step_turn {s t : State} (h : step s = .next t) : t.turn = s.turn + 1 := by
  rcases step_cases s with ⟨r, -, hs⟩ | ⟨-, r, -, hs⟩ | ⟨-, w, e, -, -, hs⟩ | ⟨i, -, hs⟩ <;> rw [hs] at h
  · cases h; rfl
  · cases h; rfl
  · cases h; rfl
  · obtain ⟨u, hu, ht⟩ := checked_turn h
    rw [ht, exec_turn hu]
    rfl

end Sys2Proof.Machine
end

