-- ==== Sys2Proof/Tests/Slice0.lean ====
section
/-!
SUPPORT. The model's own tests. Expected results come from spec/: the encodings of R94 and R95 written out, and the
vectors of 95_test_vectors.md, named by section and row (no vector was measured on hardware). Then, for each statement
that has hypotheses, a state and operands that meet them, at the boundaries of each clause.
-/
namespace Sys2Proof.Machine.Tests

/-! ### WellFormed: one ill-formed line for each check (R103) -/

theorem test_wf_register_16 : (Line.mk .skp [.v 16]).wellFormed = false := by decide
theorem test_wf_second_register_16 : (Line.mk .or [.v 15, .v 16]).wellFormed = false := by decide
theorem test_wf_nibble_16 : (Line.mk .drw [.v 1, .v 2, .num 16]).wellFormed = false := by decide
theorem test_wf_byte_256 : (Line.mk .ld [.v 0, .num 256]).wellFormed = false := by decide
theorem test_wf_addr_4096 : (Line.mk .jp [.num 4096]).wellFormed = false := by decide
theorem test_wf_word_65536 : (Line.mk .dw [.num 65536]).wellFormed = false := by decide
theorem test_wf_jump_register_is_v0 : (Line.mk .jp [.v 1, .num 0x300]).wellFormed = false := by decide
theorem test_wf_operands_missing : (Line.mk .call []).wellFormed = false := by decide
theorem test_wf_operand_kind : (Line.mk .ld [.dt, .num 3]).wellFormed = false := by decide
theorem test_wf_largest_operands_pass :
    ([⟨.jp, [.num 4095]⟩, ⟨.ld, [.v 15, .num 255]⟩, ⟨.drw, [.v 15, .v 15, .num 15]⟩, ⟨.dw, [.num 65535]⟩] : List Line).all
      Line.wellFormed = true := by decide

/-- The listing of program P2 (95_test_vectors.md part 3) assembles to its image. -/
theorem test_assemble_p2 :
    assemble [⟨.ld, [.v 0, .num 0xEA]⟩, ⟨.ld, [.index, .num 0x300]⟩, ⟨.call, [.num 0x20A]⟩, ⟨.ld, [.v 2, .atIndex]⟩,
      ⟨.dw, [.num 0]⟩, ⟨.ld, [.bcd, .v 0]⟩, ⟨.ret, []⟩] =
    some [0x60#8, 0xEA#8, 0xA3#8, 0x00#8, 0x22#8, 0x0A#8, 0xF2#8, 0x65#8, 0x00#8, 0x00#8, 0xF0#8, 0x33#8, 0x00#8,
      0xEE#8] := by decide

/-! ### Decode: words written out from R94 and R95 (95_test_vectors.md section 2.1) -/

theorem test_decode_group0 :
    decode 0x00E0#16 = .ok .cls ∧ decode 0x01E0#16 = .ok .cls ∧ decode 0x00EE#16 = .ok .ret ∧
    decode 0x0FEE#16 = .ok .ret := by decide

theorem test_decode_control :
    decode 0x1ABC#16 = .ok (.jp 0xABC#12) ∧ decode 0x2ABC#16 = .ok (.call 0xABC#12) ∧
    decode 0xB123#16 = .ok (.jpV0 0x123#12) ∧ decode 0x3A7F#16 = .ok (.seImm 10#4 0x7F#8) ∧
    decode 0x4A7F#16 = .ok (.sneImm 10#4 0x7F#8) ∧ decode 0x5AB0#16 = .ok (.seReg 10#4 11#4) ∧
    decode 0x9AB0#16 = .ok (.sneReg 10#4 11#4) := by decide

theorem test_decode_immediate :
    decode 0x6A7F#16 = .ok (.ldImm 10#4 0x7F#8) ∧ decode 0x7A7F#16 = .ok (.addImm 10#4 0x7F#8) ∧
    decode 0xA123#16 = .ok (.ldI 0x123#12) ∧ decode 0xC30F#16 = .ok (.rnd 3#4 0x0F#8) := by decide

theorem test_decode_alu :
    decode 0x8AB0#16 = .ok (.ldReg 10#4 11#4) ∧ decode 0x8AB1#16 = .ok (.orReg 10#4 11#4) ∧
    decode 0x8AB2#16 = .ok (.andReg 10#4 11#4) ∧ decode 0x8AB3#16 = .ok (.xorReg 10#4 11#4) ∧
    decode 0x8AB4#16 = .ok (.addReg 10#4 11#4) ∧ decode 0x8AB5#16 = .ok (.subReg 10#4 11#4) ∧
    decode 0x8AB6#16 = .ok (.shr 10#4 11#4) ∧ decode 0x8AB7#16 = .ok (.subnReg 10#4 11#4) ∧
    decode 0x8ABE#16 = .ok (.shl 10#4 11#4) := by decide

theorem test_decode_display_and_keys :
    decode 0xD125#16 = .ok (.drw 1#4 2#4 5#4) ∧ decode 0xE19E#16 = .ok (.skp 1#4) ∧
    decode 0xE1A1#16 = .ok (.sknp 1#4) ∧ decode 0xF10A#16 = .ok (.ldVxK 1#4) := by decide

theorem test_decode_misc :
    decode 0xF107#16 = .ok (.ldVxDt 1#4) ∧ decode 0xF115#16 = .ok (.ldDtVx 1#4) ∧
    decode 0xF118#16 = .ok (.ldStVx 1#4) ∧ decode 0xF11E#16 = .ok (.addI 1#4) ∧ decode 0xF129#16 = .ok (.ldF 1#4) ∧
    decode 0xF133#16 = .ok (.ldB 1#4) ∧ decode 0xF155#16 = .ok (.storeRegs 1#4) ∧
    decode 0xF165#16 = .ok (.loadRegs 1#4) := by decide

/-- The words section 2.1 lists as `UnknownOpcode(word)`, each with its own payload. -/
theorem test_decode_unknown :
    ([0x0000#16, 0x00E1#16, 0x0123#16, 0x5AB1#16, 0x8AB8#16, 0x8AB9#16, 0x8ABA#16, 0x8ABB#16, 0x8ABC#16, 0x8ABD#16,
      0x8ABF#16, 0x9ABF#16, 0xE100#16, 0xE19F#16, 0xE1FF#16, 0xF100#16, 0xF175#16, 0xF185#16, 0xF1FF#16] : List Word).all
      (fun w => decide (decode w = .error (.unknownOpcode w))) = true := by decide

/-- The table's numbering is the word's own, and a row is 16 bits. -/
theorem test_decodeTableWord :
    decodeTableWord 16 0x8AB4 = some (.addReg 10#4 11#4) ∧ decodeTableWord 16 0x5AB1 = none := by decide

/-! ### One tick on a small state -/

/-- The state after the CPU tick that runs the word `w` at `PC`. -/
def ran (w : Word) (s : State) : State :=
  match cpuTick (placeFetchWord s w) with
  | .next t => t
  | .fault _ => s
  | .refused _ => s

/-- The state a step answers. -/
def stepped (s : State) : Option State :=
  match step s with
  | .next t => some t
  | .fault _ => none
  | .refused _ => none

/-- Reset with two registers set. -/
def regs (x : Nibble) (a : Byte) (y : Nibble) (b : Byte) : State := (State.reset.setReg x a).setReg y b

/-- Reset with `I` and some bytes of memory set. -/
def memAt (i : Word) (bytes : List Byte) : State :=
  (State.reset.setI i).setMem (Memory.writeRange [] i.toNat bytes)

/-- The display's set pixels as `(row, col)`. -/
def pixels (s : State) : List (Nat × Nat) :=
  s.display.lit.map fun p => (p / s.display.width, p % s.display.width)

/-! Control transfer (section 2.2). -/

/-- Rows 1 and 3. -/
theorem test_jp : (ran 0x1234#16 State.reset).pc = 0x234#16 ∧ (ran 0x1FFF#16 State.reset).runState = .running := by decide

/-- Row 5. -/
theorem test_call :
    let t := ran 0x220A#16 (State.reset.setPc 0x204#16)
    t.sp = 1#4 ∧ t.stackSlot 1#4 = 0x204#16 ∧ t.pc = 0x20A#16 := by decide

/-- Row 9. -/
theorem test_call_overflow :
    let t := ran 0x2300#16 (State.reset.setSp 15#4)
    t.runState = .halted .stackOverflow ∧ t.sp = 15#4 ∧ t.pc = 0x200#16 := by decide

/-- Row 6. -/
theorem test_ret :
    let t := ran 0x00EE#16 (((State.reset.setPc 0x20A#16).setSp 1#4).setStackSlot 1#4 0x204#16)
    t.pc = 0x206#16 ∧ t.sp = 0#4 ∧ t.stackSlot 1#4 = 0x204#16 := by decide

/-- Rows 7 and 30: an empty stack; a RET that commits and then leaves memory. -/
theorem test_ret_halts :
    (ran 0x00EE#16 State.reset).runState = .halted .stackUnderflow ∧
    (let t := ran 0x00EE#16 (((State.reset.setPc 0x300#16).setSp 1#4).setStackSlot 1#4 0xFFE#16)
     t.pc = 0x1000#16 ∧ t.sp = 0#4 ∧ t.runState = .halted (.outOfBounds 4096)) := by decide

/-- Rows 11 and 13. -/
theorem test_jpV0 :
    (ran 0xB300#16 (State.reset.setReg 0#4 0x04#8)).pc = 0x304#16 ∧
    (let t := ran 0xBFFF#16 (State.reset.setReg 0#4 0xFF#8)
     t.pc = 0x10FE#16 ∧ t.runState = .halted (.outOfBounds 4350)) := by decide

/-- Rows 15, 16 and 28. -/
theorem test_seImm :
    (ran 0x3000#16 (State.reset.setPc 0x208#16)).pc = 0x20C#16 ∧
    (ran 0x3000#16 ((State.reset.setPc 0x208#16).setReg 0#4 1#8)).pc = 0x20A#16 ∧
    (ran 0x3000#16 (State.reset.setPc 0xFFE#16)).runState = .halted (.outOfBounds 4098) := by decide

/-- Rows 17 and 18. -/
theorem test_sneImm :
    (ran 0x4311#16 (State.reset.setReg 3#4 0x10#8)).pc = 0x204#16 ∧
    (ran 0x4310#16 (State.reset.setReg 3#4 0x10#8)).pc = 0x202#16 := by decide

/-- Rows 19 to 21. -/
theorem test_seReg :
    (ran 0x5120#16 (regs 1#4 7#8 2#4 7#8)).pc = 0x204#16 ∧ (ran 0x5120#16 (regs 1#4 7#8 2#4 8#8)).pc = 0x202#16 ∧
    (ran 0x5110#16 (regs 1#4 7#8 2#4 8#8)).pc = 0x204#16 := by decide

/-- Rows 22 and 23. -/
theorem test_sneReg :
    (ran 0x9120#16 (regs 1#4 7#8 2#4 8#8)).pc = 0x204#16 ∧ (ran 0x9110#16 (regs 1#4 7#8 2#4 8#8)).pc = 0x202#16 := by decide

/-! Immediate loads, immediate add, random (section 2.3). -/

/-- Rows 1 and 2. -/
theorem test_ldImm : (ran 0x60EA#16 State.reset).reg 0#4 = 0xEA#8 ∧ (ran 0x6F07#16 State.reset).reg vf = 0x07#8 := by decide

/-- Rows 4 and 7. -/
theorem test_addImm :
    (ran 0x7001#16 (State.reset.setReg 0#4 0xFF#8)).reg 0#4 = 0#8 ∧
    (ran 0x7001#16 (State.reset.setReg 0#4 0xFF#8)).reg vf = 0#8 ∧
    (ran 0x7F03#16 (State.reset.setReg vf 0xFE#8)).reg vf = 1#8 := by decide

/-- Row 9. -/
theorem test_ldI : (ran 0xAFFF#16 State.reset).i = 0xFFF#16 := by decide

/-- Row 11: mask 0 gives 0 whatever is drawn. -/
theorem test_rnd_mask_zero : ∃ t, execRnd 0#4 0#8 State.reset = .next t ∧ t.reg 0#4 = 0#8 :=
  ⟨_, rfl, by simp⟩

/-- Row 12: mask `0xFF` gives the draw itself. -/
theorem test_rnd_mask_full : ∃ t, execRnd 0#4 0xFF#8 State.reset = .next t ∧ t.reg 0#4 = Config.randByte 0 :=
  ⟨_, rfl, by rw [State.next_reg, State.setReg_reg_same]; exact BitVec.and_allOnes⟩

/-! ALU group (section 2.4). -/

/-- Row 2. -/
theorem test_ldReg : (ran 0x8EF0#16 (State.reset.setReg vf 1#8)).reg 14#4 = 1#8 := by decide

/-- Rows 3 and 7: `VF` is not reset. -/
theorem test_orReg :
    let t := ran 0x8121#16 ((regs 1#4 0x0C#8 2#4 0x0A#8).setReg vf 1#8)
    t.reg 1#4 = 0x0E#8 ∧ t.reg vf = 1#8 := by decide

/-- Row 4. -/
theorem test_andReg : (ran 0x8122#16 (regs 1#4 0x0C#8 2#4 0x0A#8)).reg 1#4 = 0x08#8 := by decide

/-- Rows 5 and 6. -/
theorem test_xorReg :
    (ran 0x8123#16 (regs 1#4 0x0C#8 2#4 0x0A#8)).reg 1#4 = 0x06#8 ∧
    (ran 0x8113#16 (regs 1#4 0x77#8 2#4 0x0A#8)).reg 1#4 = 0#8 := by decide

/-- Rows 8 and 10. -/
theorem test_addReg :
    (let t := ran 0x8014#16 (regs 0#4 0xFF#8 1#4 0x01#8); t.reg 0#4 = 0#8 ∧ t.reg vf = 1#8) ∧
    (let t := ran 0x8014#16 (regs 0#4 0x80#8 1#4 0x7F#8); t.reg 0#4 = 0xFF#8 ∧ t.reg vf = 0#8) := by decide

/-- Rows 30 to 32: `VF` as an operand. -/
theorem test_addReg_vf :
    (ran 0x8F14#16 (regs vf 0xF0#8 1#4 0x20#8)).reg vf = 0x10#8 ∧
    (let t := ran 0x80F4#16 (regs 0#4 0x01#8 vf 0xFF#8); t.reg 0#4 = 0#8 ∧ t.reg vf = 1#8) ∧
    (ran 0x8FF4#16 (State.reset.setReg vf 0x90#8)).reg vf = 0x20#8 := by decide

/-- Rows 14 and 15: a borrow; equal operands clear the flag. -/
theorem test_subReg :
    (let t := ran 0x8015#16 (regs 0#4 3#8 1#4 5#8); t.reg 0#4 = 0xFE#8 ∧ t.reg vf = 0#8) ∧
    (let t := ran 0x8015#16 ((regs 0#4 5#8 1#4 5#8).setReg vf 1#8); t.reg 0#4 = 0#8 ∧ t.reg vf = 0#8) := by decide

/-- Rows 33, 35 and 37. -/
theorem test_subReg_vf :
    (ran 0x8F15#16 (regs vf 5#8 1#4 3#8)).reg vf = 0xFE#8 ∧
    (let t := ran 0x80F5#16 (regs 0#4 5#8 vf 3#8); t.reg vf = 1#8 ∧ t.reg 0#4 = 4#8) ∧
    (ran 0x8FF5#16 (State.reset.setReg vf 9#8)).reg vf = 0#8 := by decide

/-- Rows 19 and 21: `y` is ignored. -/
theorem test_shr :
    (let t := ran 0x8006#16 (State.reset.setReg 0#4 0xFF#8); t.reg 0#4 = 0x7F#8 ∧ t.reg vf = 1#8) ∧
    (let t := ran 0x8016#16 (regs 0#4 4#8 1#4 0xFF#8); t.reg 0#4 = 2#8 ∧ t.reg 1#4 = 0xFF#8 ∧ t.reg vf = 0#8) := by decide

/-- Rows 38 and 45. -/
theorem test_shift_vf :
    (ran 0x8F06#16 (State.reset.setReg vf 3#8)).reg vf = 0#8 ∧
    (ran 0x8F0E#16 (State.reset.setReg vf 0x81#8)).reg vf = 2#8 := by decide

/-- Rows 23 and 25. -/
theorem test_subnReg :
    (let t := ran 0x8017#16 (regs 0#4 5#8 1#4 3#8); t.reg 0#4 = 0xFE#8 ∧ t.reg vf = 0#8) ∧
    (let t := ran 0x8107#16 (regs 1#4 1#8 0#4 0xFE#8); t.reg 1#4 = 0xFD#8 ∧ t.reg vf = 1#8) := by decide

/-- Rows 40 and 42. -/
theorem test_subnReg_vf :
    (ran 0x8F17#16 (regs vf 3#8 1#4 5#8)).reg vf = 4#8 ∧
    (let t := ran 0x80F7#16 (regs 0#4 3#8 vf 5#8); t.reg vf = 1#8 ∧ t.reg 0#4 = 0xFE#8) := by decide

/-- Rows 26 and 29. -/
theorem test_shl :
    (let t := ran 0x800E#16 (State.reset.setReg 0#4 0x80#8); t.reg 0#4 = 0#8 ∧ t.reg vf = 1#8) ∧
    (let t := ran 0x801E#16 (regs 0#4 0x40#8 1#4 0xFF#8); t.reg 0#4 = 0x80#8 ∧ t.reg 1#4 = 0xFF#8 ∧ t.reg vf = 0#8) := by
  decide

/-! Display (section 2.5), with the default font and size. -/

/-- Rows 1 and 2. -/
theorem test_drw_glyph :
    let t := ran 0xD125#16 (regs 1#4 3#8 2#4 4#8)
    pixels t = [(4, 3), (4, 4), (4, 5), (4, 6), (5, 3), (5, 6), (6, 3), (6, 6), (7, 3), (7, 6), (8, 3), (8, 4), (8, 5),
      (8, 6)] ∧
    t.reg vf = 0#8 ∧ pixels (ran 0xD125#16 t) = [] ∧ (ran 0xD125#16 t).reg vf = 1#8 := by decide

/-- Rows 3, 4 and 11: both wraps, and a range outside memory. -/
theorem test_drw_edges :
    pixels (ran 0xD011#16 ((memAt 0x300#16 [0xFF#8]).setReg 0#4 60#8)) =
      [(0, 0), (0, 1), (0, 2), (0, 3), (0, 60), (0, 61), (0, 62), (0, 63)] ∧
    pixels (ran 0xD012#16 ((memAt 0x300#16 [0x80#8, 0x80#8]).setReg 1#4 31#8)) = [(0, 0), (31, 0)] ∧
    (let t := ran 0xD002#16 ((State.reset.setI 0xFFF#16).setReg vf 7#8)
     t.runState = .halted (.outOfBounds 4096) ∧ t.reg vf = 7#8 ∧ t.pc = 0x200#16) := by decide

/-- Row 14. -/
theorem test_cls :
    let t := ran 0x00E0#16 ((State.reset.setDisplay (Display.reset.flip 3 5)).setReg vf 1#8)
    pixels t = [] ∧ t.reg vf = 1#8 := by decide

/-! Timer, index and memory transfer (section 2.6). -/

/-- Row 1. -/
theorem test_ldVxDt : (ran 0xF107#16 (State.reset.setDt 0x3C#8)).reg 1#4 = 0x3C#8 := by decide
/-- Row 2. -/
theorem test_ldDtVx : (ran 0xF015#16 (State.reset.setReg 0#4 3#8)).dt = 3#8 := by decide
/-- Row 3. -/
theorem test_ldStVx : (ran 0xF218#16 (State.reset.setReg 2#4 0x10#8)).st = 0x10#8 := by decide

/-- Rows 5 and 6. -/
theorem test_addI :
    (let t := ran 0xF01E#16 ((State.reset.setI 0xFFF#16).setReg 0#4 1#8)
     t.i = 0x1000#16 ∧ t.runState = .running ∧ t.reg vf = 0#8) ∧
    (ran 0xF01E#16 ((State.reset.setI 0xFFFF#16).setReg 0#4 1#8)).i = 0#16 := by decide

/-- Rows 7 and 10. -/
theorem test_ldF :
    (ran 0xF029#16 (State.reset.setReg 0#4 0x0A#8)).i = 0x32#16 ∧
    (ran 0xF029#16 (State.reset.setReg 0#4 0xFF#8)).i = 0x4FB#16 := by decide

/-- Rows 11 and 16. -/
theorem test_ldB :
    Memory.readRange (ran 0xF033#16 ((State.reset.setI 0x300#16).setReg 0#4 0xEA#8)).mem 0x300 3 = [2#8, 3#8, 4#8] ∧
    (let t := ran 0xF033#16 ((State.reset.setI 0xFFE#16).setReg 0#4 0xFF#8)
     t.runState = .halted (.outOfBounds 4096) ∧ Memory.readRange t.mem 0xFFE 2 = [0#8, 0#8]) := by decide

/-- Rows 17 and 20. -/
theorem test_storeRegs :
    (let t := ran 0xF255#16 (((regs 0#4 1#8 1#4 2#8).setReg 2#4 3#8).setI 0x400#16)
     Memory.readRange t.mem 0x400 4 = [1#8, 2#8, 3#8, 0#8] ∧ t.i = 0x400#16) ∧
    (ran 0xFF55#16 (State.reset.setI 0xFF1#16)).runState = .halted (.outOfBounds 4096) := by decide

/-- Rows 21, 22 and 24. -/
theorem test_loadRegs :
    (let t := ran 0xF265#16 (memAt 0x300#16 [2#8, 3#8, 4#8])
     t.reg 0#4 = 2#8 ∧ t.reg 1#4 = 3#8 ∧ t.reg 2#4 = 4#8 ∧ t.reg 3#4 = 0#8 ∧ t.i = 0x300#16) ∧
    (ran 0xF465#16 State.reset).regsUpTo 4#4 = [0xF0#8, 0x90#8, 0x90#8, 0x90#8, 0xF0#8] ∧
    (ran 0xF065#16 (State.reset.setI 0x1234#16)).runState = .halted (.outOfBounds 4660) := by decide

/-! Key instructions, words without a meaning, the TIMER agent, reset and load (sections 2.7 to 2.9). -/

/-- Section 2.7 rows 1 to 3. -/
theorem test_keys :
    (ran 0xF30A#16 State.reset).runState = .halted (.opcodeNotImplemented 0xF30A#16) ∧
    (ran 0xE19E#16 State.reset).runState = .halted (.opcodeNotImplemented 0xE19E#16) ∧
    (ran 0xE0A1#16 State.reset).runState = .halted (.opcodeNotImplemented 0xE0A1#16) := by decide

/-- Section 2.9 row 2: nothing loaded, the first step halts at `0x0000`. -/
theorem test_reset_step :
    stepped State.reset =
      some { State.reset with runState := .halted (.unknownOpcode 0x0000#16), turn := 1 } := by decide

/-- A placed word is the one the next step runs. -/
theorem test_withFetchWord :
    stepped (State.reset.withFetchWord 16 0x60EA) =
      some { State.reset with
        v := State.reset.v.set 0 0xEA#8, pc := 0x202#16, turn := 1, mem := [(0x200, 0x60#8), (0x201, 0xEA#8)] } := by decide

/-- Section 2.8 rows 1, 3 and 7. -/
theorem test_timer :
    (let t := timerTick ((State.reset.setDt 3#8).setSt 1#8); t.dt = 2#8 ∧ t.st = 0#8) ∧
    (timerTick State.reset).dt = 0#8 ∧ (timerTicks 9 (State.reset.setDt 5#8)).dt = 0#8 := by decide

/-- Section 2.9 row 1. -/
theorem test_reset_memory :
    Memory.readRange State.reset.mem 0 5 = [0xF0#8, 0x90#8, 0x90#8, 0x90#8, 0xF0#8] ∧
    Memory.readRange State.reset.mem 0x4B 6 = [0xF0#8, 0x80#8, 0xF0#8, 0x80#8, 0x80#8, 0#8] := by decide

/-- Section 2.1: the fetch takes the high byte first. -/
theorem test_fetch_order :
    (fetch (State.reset.setMem [(0x200, 0x12#8), (0x201, 0x34#8)])) = .ok 0x1234#16 := by decide

/-! ### What meets the hypotheses of each statement -/

/-- A state inside a subroutine, one call deep, that meets the invariants. -/
def called : State := ((State.reset.setPc 0x20A#16).setSp 1#4).setStackSlot 1#4 0x204#16

/-- At the bounds of the invariants: fifteen deep, a return address of 4094, `PC` at 4094. -/
def deep : State := ((State.reset.setPc 4094#16).setSp 15#4).setStackSlot 15#4 4094#16

/-- A halted state at the largest `PC` (R25). -/
def haltedFar : State := raise (.outOfBounds 0x10FE) (State.reset.setPc 0x10FE#16)

/-- `I` at a given address, the rest as at reset. -/
def atI (a : Word) : State := State.reset.setI a

theorem witness_EncodeInvertsDecode : decode 0x0FEE#16 = .ok .ret ∧ decode 0x8AB6#16 = .ok (.shr 10#4 11#4) := by decide

theorem witness_DecodeFollowsOpcodeMap :
    (∃ row ∈ opcodeMap, row.selects 0x0FE0#16 = true) ∧ (∃ row ∈ opcodeMap, row.selects 0xFF65#16 = true) ∧
    (∀ row ∈ opcodeMap, row.selects 0x0000#16 = false) := by decide

/-- The last place an instruction fits, where its `PC` leaves memory, and the first. -/
theorem witness_StepRunsDecodedInstruction :
    (∃ s : State, s.runState = .running ∧ s.pc.toNat = 4094 ∧
      decode (wordOfBytes (Memory.read s.mem s.pc.toNat) (Memory.read s.mem (s.pc.toNat + 1))) = .ok (.ldImm 0#4 1#8) ∧
      ∃ t, exec (.ldImm 0#4 1#8) (betweenTicks s) = .next t ∧ t.runState = .running ∧ 4096 ≤ t.pc.toNat) ∧
    (∃ s : State, s.runState = .running ∧ s.pc.toNat = 0 ∧
      decode (wordOfBytes (Memory.read s.mem s.pc.toNat) (Memory.read s.mem (s.pc.toNat + 1))) = .ok (.jp 0x300#12) ∧
      ∃ t, exec (.jp 0x300#12) (betweenTicks s) = .next t ∧ t.pc.toNat < 4096) := by
  refine ⟨⟨placeFetchWord (State.reset.setPc 4094#16) 0x6001#16, rfl, by decide, by decide, _, rfl, rfl, by decide⟩,
    ⟨placeFetchWord (State.reset.setPc 0#16) 0x1300#16, rfl, by decide, by decide, _, rfl, by decide⟩⟩

theorem witness_HaltedMachineOnlyCountsDown :
    (haltedFar.setDt 2#8).runState = .halted (.outOfBounds 0x10FE) := by decide

theorem witness_FetchReadsHighByteFirstOrHalts :
    (State.reset.setPc 0#16).pc.toNat ≤ 4094 ∧ (State.reset.setPc 4094#16).pc.toNat ≤ 4094 ∧
    (State.reset.setPc 4095#16).runState = .running ∧ (State.reset.setPc 4095#16).pc.toNat = 4095 ∧
    (State.reset.setPc 4096#16).runState = .running ∧ 4095 < (State.reset.setPc 4096#16).pc.toNat ∧
    4095 < (State.reset.setPc 65535#16).pc.toNat := by decide

theorem witness_WordWithoutMeaningHalts :
    State.reset.runState = .running ∧ State.reset.pc.toNat ≤ 4094 ∧
    decode (wordOfBytes (Memory.read State.reset.mem 0x200) (Memory.read State.reset.mem 0x201)) =
      .error (.unknownOpcode 0#16) ∧
    (let s := placeFetchWord (State.reset.setPc 4094#16) 0xFF0A#16
     s.runState = .running ∧ s.pc.toNat = 4094 ∧
     decode (wordOfBytes (Memory.read s.mem 4094) (Memory.read s.mem 4095)) = .ok (.ldVxK 15#4) ∧
     Instr.isKeyInstr (.ldVxK 15#4) = true) := by decide

/-- A failure before the instruction, and one of the end-of-tick check. -/
theorem witness_FailuresArePrecise :
    (∃ t, step State.reset = .next t ∧ t.runState = .halted (.unknownOpcode 0#16)) ∧
    (∃ s t, s.runState = .running ∧ step s = .next t ∧ t.runState = .halted (.outOfBounds 4096) ∧ t.pc = 4096#16) := by
  refine ⟨⟨_, rfl, by decide⟩, ⟨placeFetchWord (State.reset.setPc 4094#16) 0x6001#16, _, rfl, rfl, by decide, by decide⟩⟩

theorem witness_HaltReasonsNameTheirCause :
    (∃ t, exec .ret State.reset = .next t ∧ t.runState = .halted .stackUnderflow) ∧
    (∃ t, exec (.call 0#12) deep = .next t ∧ t.runState = .halted .stackOverflow) ∧
    (∃ t, exec (.skp 2#4) State.reset = .next t ∧ t.runState = .halted (.opcodeNotImplemented 0xE29E#16)) ∧
    (∃ t, exec (.drw 0#4 0#4 1#4) (atI 4096#16) = .next t ∧ t.runState = .halted (.outOfBounds 4096)) ∧
    (∃ t, exec (.ldB 0#4) (atI 4094#16) = .next t ∧ t.runState = .halted (.outOfBounds 4096)) ∧
    (∃ t, exec (.storeRegs 15#4) (atI 4081#16) = .next t ∧ t.runState = .halted (.outOfBounds 4096)) ∧
    (∃ t, exec (.loadRegs 0#4) (atI 5000#16) = .next t ∧ t.runState = .halted (.outOfBounds 5000)) := by
  refine ⟨⟨_, rfl, by decide⟩, ⟨_, rfl, by decide⟩, ⟨_, rfl, by decide⟩, ⟨_, rfl, by decide⟩, ⟨_, rfl, by decide⟩,
    ⟨_, rfl, by decide⟩, ⟨_, rfl, by decide⟩⟩

theorem witness_TimersWrittenOnlyByTheirLoads :
    (∃ t, exec (.ldDtVx 0#4) (State.reset.setReg 0#4 9#8) = .next t ∧ t.dt = 9#8) ∧
    (∃ t, exec (.ldStVx 0#4) (State.reset.setReg 0#4 9#8) = .next t ∧ t.st = 9#8) := by
  refine ⟨⟨_, rfl, by decide⟩, ⟨_, rfl, by decide⟩⟩

theorem deep_machineInv : MachineInv deep :=
  ⟨by decide, by decide, by decide, by decide, by decide, by decide⟩

theorem haltedFar_machineInv : MachineInv haltedFar :=
  ⟨by decide, by decide, by decide, by decide, fun h => absurd h (by decide), by decide⟩

theorem called_machineInv : MachineInv called :=
  ⟨by decide, by decide, by decide, by decide, by decide, by decide⟩

/-- Invariant states at the bounds, running and halted, each with its step. -/
theorem witness_StepKeepsInv :
    (MachineInv deep ∧ ∃ t, step deep = .next t) ∧ (MachineInv haltedFar ∧ ∃ t, step haltedFar = .next t) :=
  ⟨⟨deep_machineInv, _, rfl⟩, ⟨haltedFar_machineInv, _, rfl⟩⟩

theorem witness_StackChangesOnlyByCallAndRet :
    (∃ t, exec .ret called = .next t ∧ t.sp = 0#4) ∧ (∃ t, exec (.call 0x300#12) called = .next t ∧ t.sp = 2#4) ∧
    (∃ t, exec .cls called = .next t ∧ t.sp = 1#4) := by
  refine ⟨⟨_, rfl, by decide⟩, ⟨_, rfl, by decide⟩, ⟨_, rfl, by decide⟩⟩

/-- A changed byte at the last address of each store's range. -/
theorem witness_MemoryChangesOnlyByStores :
    (∃ t, exec (.ldB 0#4) ((atI 4093#16).setReg 0#4 1#8) = .next t ∧
      Memory.read t.mem 4095 ≠ Memory.read ((atI 4093#16).setReg 0#4 1#8).mem 4095) ∧
    (∃ t, exec (.storeRegs 15#4) ((atI 4080#16).setReg 15#4 1#8) = .next t ∧
      Memory.read t.mem 4095 ≠ Memory.read ((atI 4080#16).setReg 15#4 1#8).mem 4095) := by
  refine ⟨⟨_, rfl, by decide⟩, ⟨_, rfl, by decide⟩⟩

theorem witness_RegistersChangeOnlyAsListed :
    writesReg 1#4 (.addReg 0#4 1#4) = false ∧ writesReg 6#4 (.loadRegs 5#4) = false ∧
    (∃ t, exec (.addReg 0#4 1#4) State.reset = .next t) ∧ (∃ t, exec (.loadRegs 5#4) State.reset = .next t) := by
  refine ⟨by decide, by decide, ⟨_, rfl⟩, ⟨_, rfl⟩⟩

/-- `Fx1E` from `I = 4095` passes it. -/
theorem witness_IndexAndDisplayWriters :
    ∃ t, exec (.addI 0#4) ((atI 4095#16).setReg 0#4 1#8) = .next t ∧ (atI 4095#16).i.toNat ≤ 4095 ∧ 4095 < t.i.toNat :=
  ⟨_, rfl, by decide, by decide⟩

theorem witness_SoundTimerIsNeverRead : ∃ t, exec (.ldStVx 0#4) State.reset = .next t := ⟨_, rfl⟩

/-- A return from the deepest call, and a skip from the last place an instruction fits. -/
theorem witness_PcAfterInstruction :
    (MachineInv deep ∧ deep.runState = .running ∧ ∃ t, exec .ret deep = .next t ∧ t.runState = .running) ∧
    (MachineInv deep ∧ ∃ t, exec (.seImm 0#4 0#8) deep = .next t ∧ t.runState = .running ∧ t.pc.toNat = 4098) := by
  refine ⟨⟨deep_machineInv, rfl, _, rfl, by decide⟩, ⟨deep_machineInv, _, rfl, by decide, by decide⟩⟩

theorem witness_CallPushesItsOwnAddress :
    State.reset.sp ≠ 15#4 ∧ (State.reset.setSp 14#4).sp ≠ 15#4 ∧ deep.sp = 15#4 := by decide

theorem witness_RetReturnsPastTheCall : called.sp ≠ 0#4 ∧ deep.sp ≠ 0#4 ∧ State.reset.sp = 0#4 := by decide

theorem witness_CallThenRetComesBack :
    (deep.setSp 14#4).sp ≠ 15#4 ∧ (deep.setSp 14#4).pc.toNat ≤ 4094 := by decide

theorem witness_SkipsMoveFourOrTwo :
    (regs 1#4 7#8 2#4 8#8).reg 1#4 = 7#8 ∧ (regs 1#4 7#8 2#4 8#8).reg 1#4 ≠ (regs 1#4 7#8 2#4 8#8).reg 2#4 ∧
    (regs 1#4 7#8 2#4 7#8).reg 1#4 = (regs 1#4 7#8 2#4 7#8).reg 2#4 ∧ (regs 1#4 7#8 2#4 8#8).reg 1#4 ≠ 0#8 := by decide

/-- The sums 256 and 255. -/
theorem witness_AddSetsCarry :
    (0#4 : Nibble) ≠ vf ∧
    255 < ((regs 0#4 0xFF#8 1#4 1#8).reg 0#4).toNat + ((regs 0#4 0xFF#8 1#4 1#8).reg 1#4).toNat ∧
    ((regs 0#4 0xFE#8 1#4 1#8).reg 0#4).toNat + ((regs 0#4 0xFE#8 1#4 1#8).reg 1#4).toNat ≤ 255 := by decide

theorem witness_SubtractSetsGreaterFlag : (0#4 : Nibble) ≠ vf ∧ (14#4 : Nibble) ≠ vf := by decide
theorem witness_ReverseSubtractSetsGreaterFlag : (0#4 : Nibble) ≠ vf ∧ (14#4 : Nibble) ≠ vf := by decide
theorem witness_ShiftsMoveOneBitIntoVf : (0#4 : Nibble) ≠ vf ∧ (14#4 : Nibble) ≠ vf := by decide
theorem witness_VfAsOperandFollowsTable : (0#4 : Nibble) ≠ vf ∧ (14#4 : Nibble) ≠ vf := by decide

/-- The tallest sprite ending at the last byte of memory, and an empty one at 4096. -/
theorem witness_DrawXorsSpriteAndReportsCollision :
    (atI 4081#16).display.wf = true ∧ (15#4 : Nibble).toNat ≤ (atI 4081#16).display.height ∧
    (atI 4081#16).i.toNat + (15#4 : Nibble).toNat ≤ 4096 ∧ (atI 4096#16).i.toNat + (0#4 : Nibble).toNat ≤ 4096 := by decide

theorem witness_DrawCompletesAndKeepsTheRest :
    (atI 4081#16).i.toNat + (15#4 : Nibble).toNat ≤ 4096 ∧ (atI 4096#16).i.toNat + (0#4 : Nibble).toNat ≤ 4096 := by decide

theorem witness_DrawTwiceRestoresDisplay :
    (1#4 : Nibble) ≠ vf ∧ State.reset.display.wf = true ∧ State.reset.i.toNat + (15#4 : Nibble).toNat ≤ 4096 ∧
    State.reset.display.lit = [] ∧ (15#4 : Nibble).toNat ≤ State.reset.display.height ∧
    ∃ k, k < (15#4 : Nibble).toNat ∧ Memory.read State.reset.mem (State.reset.i.toNat + k) ≠ 0#8 :=
  ⟨by decide, by decide, by decide, by decide, by decide, 14, by decide, by decide⟩

/-- Each range one byte too far. -/
theorem witness_RangeOutsideMemoryHalts :
    4096 < (atI 4082#16).i.toNat + (15#4 : Nibble).toNat ∧ 4096 < (atI 4097#16).i.toNat + (0#4 : Nibble).toNat ∧
    4095 < (atI 4094#16).i.toNat + 2 ∧ 4095 < (atI 4081#16).i.toNat + (15#4 : Nibble).toNat ∧
    4095 < (atI 4096#16).i.toNat + (0#4 : Nibble).toNat := by decide

theorem witness_DecimalDigitsStored : Memory.wf (atI 4093#16).mem = true ∧ (atI 4093#16).i.toNat + 2 ≤ 4095 := by decide

theorem witness_RegistersStored :
    Memory.wf (atI 4080#16).mem = true ∧ (atI 4080#16).i.toNat + (15#4 : Nibble).toNat ≤ 4095 := by decide

theorem witness_RegistersLoaded : (atI 4080#16).i.toNat + (15#4 : Nibble).toNat ≤ 4095 := by decide

/-- `u` is the stored state with its registers cleared. -/
theorem witness_StoreThenLoadRestoresRegisters :
    Memory.wf (atI 4080#16).mem = true ∧ (atI 4080#16).i.toNat + (15#4 : Nibble).toNat ≤ 4095 ∧
    ∃ t, exec (.storeRegs 15#4) ((atI 4080#16).setReg 3#4 7#8) = .next t ∧
      (t.setReg 3#4 0#8).mem = t.mem ∧ (t.setReg 3#4 0#8).i = t.i :=
  ⟨by decide, by decide, _, rfl, rfl, rfl⟩

/-- Stored at `0x202`, the address after the store at `0x200`; the pair's first register is 0, and then 14. -/
theorem witness_StoredBytesAreFetchedNext :
    Memory.wf (atI 0x202#16).mem = true ∧ (atI 0x202#16).i.toNat + (1#4 : Nibble).toNat ≤ 4095 ∧
    (0#4 : Nibble).toNat + 1 ≤ (1#4 : Nibble).toNat ∧
    ((atI 0x202#16).pc + 2#16).toNat = (atI 0x202#16).i.toNat + (0#4 : Nibble).toNat ∧
    (14#4 : Nibble).toNat + 1 ≤ (15#4 : Nibble).toNat ∧
    ((atI 0x1F4#16).pc + 2#16).toNat = (atI 0x1F4#16).i.toNat + (14#4 : Nibble).toNat := by decide

theorem witness_CanonicalMemoriesReadingAlikeAreEqual :
    ∃ m m' : List Host.Cell, Memory.wf m = true ∧ Memory.wf m' = true ∧ m ≠ [] ∧
      ∀ a, Memory.read m a = Memory.read m' a :=
  ⟨Memory.write [] 0x300 1#8, Memory.write (Memory.write [] 0x300 5#8) 0x300 1#8, by decide, by decide, by decide,
    fun _ => rfl⟩

theorem witness_MemoryWritesRepeatAndCommute :
    Memory.wf (Memory.write [] 0 1#8) = true ∧ (0 : Nat) < 4096 ∧ (4095 : Nat) < 4096 ∧ (0 : Nat) ≠ 4095 := by decide

/-- The longest image that fits, and one byte more. -/
theorem witness_HostLoadWritesImageOrFails :
    Memory.wf State.reset.mem = true ∧ 0x200 + (List.replicate 3584 (1#8 : Byte)).length ≤ 4096 ∧
    4096 < 0x200 + (List.replicate 3585 (1#8 : Byte)).length := by
  rw [List.length_replicate, List.length_replicate]
  decide

theorem witness_HostActsOnlyAtStartAndEnd :
    (List.replicate 3584 (1#8 : Byte)).length ≤ 3584 ∧ 3584 < (List.replicate 3585 (1#8 : Byte)).length ∧
    HostAction.reset ≠ HostAction.teardown ∧ (∀ s, Lifecycle.absent ≠ .started s) ∧
    ∃ t, step State.reset = .next t := by
  rw [List.length_replicate, List.length_replicate]
  exact ⟨by decide, by decide, by decide, nofun, _, rfl⟩

/-- A machine that jumps to itself at `0x200`, its delay timer at 5, before the n-th turn. -/
def spinDt : Nat → Byte
  | 0 => 5#8
  | n + 1 => drain (timerTicksBefore n) (spinDt n)

def spin (n : Nat) : State :=
  { State.reset with dt := spinDt n, turn := n, mem := [(0x200, 0x12#8)] }

theorem spin_fetch (n : Nat) : fetch (spin n) = .ok 0x1200#16 := by
  have h : fetch (State.reset.setMem [(0x200, 0x12#8)]) = .ok 0x1200#16 := by decide
  exact h

theorem spin_decode : decode 0x1200#16 = .ok (.jp 0x200#12) := by decide

/-- What the spinning machine runs is always its jump. -/
theorem spin_runs {i : Instr} {n : Nat} (h : AboutToRun i (spin n)) : i = .jp 0x200#12 := by
  obtain ⟨-, w, hw, hd⟩ := h
  rw [spin_fetch] at hw
  cases hw
  rw [spin_decode] at hd
  cases hd
  rfl

theorem spin_isRun : IsRun spin := by
  intro n
  rcases step_cases (spin n) with ⟨r, hr, -⟩ | ⟨-, r, hf, -⟩ | ⟨-, w, e, hf, hd, -⟩ | ⟨i, hi, hs⟩
  · cases hr
  · rw [spin_fetch] at hf; cases hf
  · rw [spin_fetch] at hf
    cases hf
    rw [spin_decode] at hd
    cases hd
  · rw [hs, spin_runs hi]
    rfl

theorem witness_TimerTicksInfinitelyOften : IsRun spin ∧ (spin 0).dt = 5#8 := ⟨spin_isRun, rfl⟩

theorem witness_TimersRunOutUnlessReloaded :
    IsRun spin ∧ (∀ (n : Nat) (x : Nibble), ¬ AboutToRun (.ldDtVx x) (spin n)) ∧
    (∀ (n : Nat) (x : Nibble), ¬ AboutToRun (.ldStVx x) (spin n)) :=
  ⟨spin_isRun, fun _ _ h => (nomatch spin_runs h), fun _ _ h => (nomatch spin_runs h)⟩

/-- With gaps 0, 2 and then 0, ticks fall before turns 0 and 3 and not between (R249: any number of CPU ticks may pass). -/
theorem test_schedule :
    let ticks := scheduledTicks (fun k => if k = 1 then 2 else 0) (fun _ => 999)
    ticks 0 = 1000 ∧ ticks 1 = 0 ∧ ticks 2 = 0 ∧ ticks 3 = 1000 := by decide

end Sys2Proof.Machine.Tests
end

