-- ==== Sys2Proof/Proofs/ControlFlow.lean ====
section
/-!
Proofs about the jumps and the skips (41_control_flow.md). Each of them is one write of `PC`, so its frame is the frame of
`setPc`; what is left is the number written.
-/
namespace Sys2Proof.Machine

/-! ### Operands as numbers -/

@[simp] theorem addrOperand_toNat (nnn : Addr) : (addrOperand nnn).toNat = nnn.toNat :=
  BitVec.toNat_setWidth_of_le (by decide)

@[simp] theorem wideOperand_toNat (b : Byte) : (wideOperand b).toNat = b.toNat :=
  BitVec.toNat_setWidth_of_le (by decide)

/-- A 12-bit and an 8-bit number add up inside 16 bits, so the sum of R143 is exact. -/
theorem addrOperand_add_wideOperand_toNat (nnn : Addr) (b : Byte) :
    (addrOperand nnn + wideOperand b).toNat = nnn.toNat + b.toNat := by
  have hn : nnn.toNat < 4096 := nnn.isLt
  have hb : b.toNat < 256 := b.isLt
  rw [BitVec.toNat_add_of_lt (by rw [addrOperand_toNat, wideOperand_toNat]; omega), addrOperand_toNat, wideOperand_toNat]

/-! ### The frame of a write of `PC` -/

theorem OnlyRegs.refl (dest : List Nibble) (s : State) : OnlyRegs dest s s :=
  ⟨fun _ _ => rfl, rfl, ⟨rfl, rfl⟩, ⟨rfl, fun _ => rfl⟩, fun _ => rfl, rfl, rfl, ⟨rfl, rfl⟩⟩

/-- `OnlyRegs` says nothing of `PC`, so it survives a write of `PC`. -/
theorem OnlyRegs.setPc {dest : List Nibble} {s t : State} (h : OnlyRegs dest s t) (w : Word) :
    OnlyRegs dest s (t.setPc w) := h

theorem OnlyRegs.skipIf {dest : List Nibble} {s t : State} (h : OnlyRegs dest s t) (c : Bool) :
    OnlyRegs dest s (skipIf c t) := h.setPc _

/-! ### What a skip writes to `PC` -/

theorem skipIf_pc_of_true {c : Bool} (s : State) (h : c = true) : (skipIf c s).pc = s.pc + 4#16 := by
  rw [h]; rfl

theorem skipIf_pc_of_false {c : Bool} (s : State) (h : c = false) : (skipIf c s).pc = s.pc + 2#16 := by
  rw [h]; rfl

/-! ### The instructions as writes of `PC` -/

theorem exec_jp (nnn : Addr) (s : State) : exec (.jp nnn) s = .next (s.setPc (addrOperand nnn)) := rfl

theorem exec_jpV0 (nnn : Addr) (s : State) :
    exec (.jpV0 nnn) s = .next (s.setPc (addrOperand nnn + wideOperand (s.reg 0#4))) := rfl

theorem exec_seImm (x : Nibble) (kk : Byte) (s : State) :
    exec (.seImm x kk) s = .next (skipIf (s.reg x == kk) s) := rfl

theorem exec_sneImm (x : Nibble) (kk : Byte) (s : State) :
    exec (.sneImm x kk) s = .next (skipIf (s.reg x != kk) s) := rfl

theorem exec_seReg (x y : Nibble) (s : State) :
    exec (.seReg x y) s = .next (skipIf (s.reg x == s.reg y) s) := rfl

theorem exec_sneReg (x y : Nibble) (s : State) :
    exec (.sneReg x y) s = .next (skipIf (s.reg x != s.reg y) s) := rfl

/-- What any skip does, once it is known which proposition its condition `c` decides. -/
theorem exec_skip {i : Instr} {s : State} {c : Bool} {holds fails : Prop} (he : exec i s = .next (skipIf c s))
    (ht : holds → c = true) (hf : fails → c = false) :
    ∃ t, exec i s = .next t ∧ OnlyRegs [] s t ∧ (holds → t.pc = s.pc + 4#16) ∧ (fails → t.pc = s.pc + 2#16) :=
  ⟨_, he, (OnlyRegs.refl [] s).skipIf c, fun h => skipIf_pc_of_true s (ht h), fun h => skipIf_pc_of_false s (hf h)⟩

/-! ### The statements -/

/-- Settles O26: a jump writes the zero-extended `nnn` to `PC`. -/
theorem jumpSetsPc : Obligations.JumpSetsPc := fun nnn s =>
  ⟨_, exec_jp nnn s, addrOperand_toNat nnn, (OnlyRegs.refl [] s).setPc _⟩

/-- Settles O30: the 16-bit sum written to `PC` does not wrap. -/
theorem jumpV0AddsV0 : Obligations.JumpV0AddsV0 := fun nnn s =>
  ⟨_, exec_jpV0 nnn s, addrOperand_add_wideOperand_toNat nnn (s.reg 0#4), (OnlyRegs.refl [] s).setPc _⟩

/-- Settles O31: each skip is `skipIf` of its condition. -/
theorem skipsMoveFourOrTwo : Obligations.SkipsMoveFourOrTwo :=
  ⟨fun x kk s => exec_skip (exec_seImm x kk s) beq_iff_eq.mpr beq_eq_false_iff_ne.mpr,
    fun x kk s => exec_skip (exec_sneImm x kk s) bne_iff_ne.mpr bne_eq_false_iff_eq.mpr,
    fun x y s => exec_skip (exec_seReg x y s) beq_iff_eq.mpr beq_eq_false_iff_ne.mpr,
    fun x y s => exec_skip (exec_sneReg x y s) bne_iff_ne.mpr bne_eq_false_iff_eq.mpr⟩

end Sys2Proof.Machine
end

