-- ==== Sys2Proof/Proofs/LoadAddImmediate.lean ====
section
/-!
Proofs about the loads of an immediate (42_load_add_immediate.md): one write, of a register or of `I`, and then the step to
the next instruction. The frame of each part is a rule of its own, for every instruction of that shape.
-/
namespace Sys2Proof.Machine

/-! ### The frame of a register write, and of the step to the next instruction -/

/-- A write of a listed register stays within what `OnlyRegs` allows. -/
theorem OnlyRegs.setReg {dest : List Nibble} {s t : State} (h : OnlyRegs dest s t) {x : Nibble} (hx : x ∈ dest) (b : Byte) :
    OnlyRegs dest s (t.setReg x b) := by
  obtain ⟨hregs, hrest⟩ := h
  refine ⟨fun r hr => ?_, hrest⟩
  have hne : r ≠ x := fun he => hr (he ▸ hx)
  rw [State.reg_setReg, if_neg hne, hregs r hr]

theorem OnlyRegs.next {dest : List Nibble} {s t : State} (h : OnlyRegs dest s t) : OnlyRegs dest s t.next := h.setPc _

/-! ### The instructions as writes -/

theorem exec_ldImm (x : Nibble) (kk : Byte) (s : State) : exec (.ldImm x kk) s = .next (s.setReg x kk).next := rfl

theorem exec_ldI (nnn : Addr) (s : State) : exec (.ldI nnn) s = .next (s.setI (addrOperand nnn)).next := rfl

/-- What any instruction does that writes `b` to `V[x]` and goes on. -/
theorem exec_setReg_next {i : Instr} {s : State} {x : Nibble} {b : Byte} (he : exec i s = .next (s.setReg x b).next) :
    ∃ t, exec i s = .next t ∧ t.reg x = b ∧ t.pc = s.pc + 2#16 ∧ OnlyRegs [x] s t :=
  ⟨_, he, State.setReg_reg_same s x b, State.next_pc _, ((OnlyRegs.refl [x] s).setReg (List.mem_singleton_self x) b).next⟩

/-- What any instruction does that writes `w` to `I` and goes on; `n` is the number the spec gives for `w`. -/
theorem exec_setI_next {i : Instr} {s : State} {w : Word} {n : Nat} (he : exec i s = .next (s.setI w).next)
    (hw : w.toNat = n) :
    ∃ t, exec i s = .next t ∧ t.i.toNat = n ∧ t.pc = s.pc + 2#16 ∧
      KeepsRegsBut [] s t ∧ KeepsTimers s t ∧ KeepsStack s t ∧ KeepsMem s t ∧ t.display = s.display ∧
      t.runState = s.runState ∧ KeepsCounters s t := by
  obtain ⟨hregs, -, hrest⟩ := OnlyRegs.refl [] s
  exact ⟨_, he, hw, State.next_pc _, hregs, hrest⟩

/-! ### The statements -/

/-- Settles O32: the instruction is a plain register write, of `VF` as of any other register. -/
theorem loadImmediateWritesRegister : Obligations.LoadImmediateWritesRegister := fun x kk s =>
  exec_setReg_next (exec_ldImm x kk s)

/-- Settles O34: the zero-extended `nnn` is the number `nnn`. -/
theorem loadIndexZeroExtends : Obligations.LoadIndexZeroExtends := fun nnn s =>
  exec_setI_next (exec_ldI nnn s) (addrOperand_toNat nnn)

end Sys2Proof.Machine
end

section
/-!
Proofs about the ALU group (43_alu.md): a flag written to `VF`, then a result to `V[x]`. The result is written last, so it
is what stays where `x` is `VF`; the frame is the same for every instruction of that shape.
-/
namespace Sys2Proof.Machine

/-! ### The carry flag -/

theorem carryFlag_of_lt {a b : Byte} (h : 255 < a.toNat + b.toNat) : carryFlag a b = 1#8 := by
  simp [carryFlag, flagValue, h]

theorem carryFlag_of_le {a b : Byte} (h : a.toNat + b.toNat ≤ 255) : carryFlag a b = 0#8 := by
  simp [carryFlag, flagValue, h]

/-! ### The instruction as two writes -/

theorem exec_addReg (x y : Nibble) (s : State) :
    exec (.addReg x y) s =
      .next ((s.setReg vf (carryFlag (s.reg x) (s.reg y))).setReg x (s.reg x + s.reg y)).next := rfl

/-- What any instruction does that writes `flag` to `VF`, then `result` to `V[x]`, and goes on. -/
theorem exec_setFlag_setReg_next {i : Instr} {s : State} {x : Nibble} {flag result : Byte}
    (he : exec i s = .next ((s.setReg vf flag).setReg x result).next) :
    ∃ t, exec i s = .next t ∧ t.reg x = result ∧ (x ≠ vf → t.reg vf = flag) ∧ t.pc = s.pc + 2#16 ∧
      OnlyRegs [x, vf] s t := by
  refine ⟨_, he, State.setReg_reg_same _ x result, fun hx => ?_, State.next_pc _, ?_⟩
  · rw [State.next_reg, State.reg_setReg, if_neg (Ne.symm hx), State.setReg_reg_same]
  · exact (((OnlyRegs.refl _ s).setReg (by simp) flag).setReg (by simp) result).next

/-! ### The statement -/

/-- Settles O37: both writes take the old operands, and the byte sum is the sum of the numbers mod 256. -/
theorem addSetsCarry : Obligations.AddSetsCarry := fun x y s => by
  obtain ⟨t, he, hsum, hflag, hpc, hrest⟩ := exec_setFlag_setReg_next (exec_addReg x y s)
  refine ⟨t, he, ?_, fun hx hlt => ?_, fun hx hle => ?_, hpc, hrest⟩
  · rw [hsum, BitVec.toNat_add]
  · rw [hflag hx, carryFlag_of_lt hlt]
  · rw [hflag hx, carryFlag_of_le hle]

end Sys2Proof.Machine
end

section
/-!
Proofs about the display instructions (44_display.md): a write of the display, and then the step to the next instruction.
-/
namespace Sys2Proof.Machine

/-! ### The instruction as a write -/

theorem exec_cls (s : State) : exec .cls s = .next (s.setDisplay s.display.clear).next := rfl

/-- What any instruction does that makes `d` the display and goes on. -/
theorem exec_setDisplay_next {i : Instr} {s : State} {d : Display} (he : exec i s = .next (s.setDisplay d).next) :
    ∃ t, exec i s = .next t ∧ t.display = d ∧ t.pc = s.pc + 2#16 ∧
      KeepsRegsBut [] s t ∧ t.i = s.i ∧ KeepsTimers s t ∧ KeepsStack s t ∧ KeepsMem s t ∧
      t.runState = s.runState ∧ KeepsCounters s t := by
  obtain ⟨hregs, hi, htimers, hstack, hmem, -, hrest⟩ := OnlyRegs.refl [] s
  exact ⟨_, he, rfl, State.next_pc _, hregs, hi, htimers, hstack, hmem, hrest⟩

/-! ### The statement -/

/-- Settles O42: the display written is the cleared one, which has no set pixel and the old size. -/
theorem clearDarkensEveryPixel : Obligations.ClearDarkensEveryPixel := fun s => by
  obtain ⟨t, he, hdisplay, hframe⟩ := exec_setDisplay_next (exec_cls s)
  refine ⟨t, he, fun row col => ?_, ?_, ?_, hframe⟩
  · rw [hdisplay, Display.clear_pixel]
  · rw [hdisplay, Display.clear_width]
  · rw [hdisplay, Display.clear_height]

end Sys2Proof.Machine
end

section
/-!
Proofs about the timer transfers (45_misc_timer_memory.md): one write, of a register or of a timer, and then the step to the
next instruction.
-/
namespace Sys2Proof.Machine

/-! ### The instructions as writes -/

theorem exec_ldVxDt (x : Nibble) (s : State) : exec (.ldVxDt x) s = .next (s.setReg x s.dt).next := rfl

theorem exec_ldDtVx (x : Nibble) (s : State) : exec (.ldDtVx x) s = .next (s.setDt (s.reg x)).next := rfl

theorem exec_ldStVx (x : Nibble) (s : State) : exec (.ldStVx x) s = .next (s.setSt (s.reg x)).next := rfl

/-! ### The statement -/

/-- Settles O47: the read is a plain register write; each load writes one timer, and its frame is that of no change at all
but for the timers. -/
theorem timerTransfers : Obligations.TimerTransfers := fun x s => by
  obtain ⟨hregs, hi, -, hstack, hmem, hrest⟩ := OnlyRegs.refl [] s
  refine ⟨exec_setReg_next (exec_ldVxDt x s), ⟨_, exec_ldDtVx x s, ?_⟩, ⟨_, exec_ldStVx x s, ?_⟩⟩
  · exact ⟨State.setDt_dt s _, State.setDt_st s (s.reg x), State.next_pc _, hregs, hi, hstack, hmem, hrest⟩
  · exact ⟨State.setSt_st s _, State.setSt_dt s (s.reg x), State.next_pc _, hregs, hi, hstack, hmem, hrest⟩

end Sys2Proof.Machine
end

