-- ==== Sys2Proof/Proofs/KeyInstructions.lean ====
section
/-!
Proofs about the key instructions (46_unimplemented_and_illegal.md): each raises `OpcodeNotImplemented` with its canonical
word, and no key is looked at.
-/
namespace Sys2Proof.Machine

/-! ### The instructions as halts -/

theorem exec_ldVxK (x : Nibble) (s : State) :
    exec (.ldVxK x) s = .next (raise (.opcodeNotImplemented (wordXKK 0xF#4 x 0x0A#8)) s) := rfl

theorem exec_skp (x : Nibble) (s : State) :
    exec (.skp x) s = .next (raise (.opcodeNotImplemented (wordXKK 0xE#4 x 0x9E#8)) s) := rfl

theorem exec_sknp (x : Nibble) (s : State) :
    exec (.sknp x) s = .next (raise (.opcodeNotImplemented (wordXKK 0xE#4 x 0xA1#8)) s) := rfl

/-- What any instruction does that raises `OpcodeNotImplemented` with the word of group `g`, register `x` and low byte `kk`;
`base` is the number of that word with `x` at 0. -/
theorem exec_raise_opcodeNotImplemented {i : Instr} {g x : Nibble} {kk : Byte} {s : State} {base : Nat}
    (he : exec i s = .next (raise (.opcodeNotImplemented (wordXKK g x kk)) s))
    (hbase : g.toNat * 4096 + kk.toNat = base) :
    ∃ t w, exec i s = .next t ∧ HaltsWith (.opcodeNotImplemented w) s t ∧ w.toNat = base + x.toNat * 256 := by
  refine ⟨_, wordXKK g x kk, he, raise_haltsWith _ s, ?_⟩
  rw [wordXKK_toNat, ← hbase, Nat.add_right_comm]

/-! ### The statement -/

/-- Settles O54: the raise is the whole effect, and the word's fields give its number. -/
theorem keyInstructionsHalt : Obligations.KeyInstructionsHalt := fun x s =>
  ⟨exec_raise_opcodeNotImplemented (exec_ldVxK x s) rfl,
    exec_raise_opcodeNotImplemented (exec_skp x s) rfl,
    exec_raise_opcodeNotImplemented (exec_sknp x s) rfl⟩

end Sys2Proof.Machine
end

