-- ==== Sys2Proof/Proofs/Encoding.lean ====
section
/-!
Proofs about the encoding (30_encoding.md): decode after encode, encode after decode, the opcode map and the assembler's
lines. Every case is settled by the word's group, and in groups 0, 5, 8, 9, E and F by its low nibble or byte.
-/
namespace Sys2Proof

/-! ### Decode after encode -/

/-- Decoding the canonical word of an instruction gives the instruction: its group selects the branch, and in groups 0, 8,
E and F its function nibble or byte selects the row. -/
theorem decode_encode (i : Instr) : decode (encode i) = .ok i := by
  cases i
  case cls | ret => exact (decode_group0 (fieldGroup_wordXKK _ _ _)).trans (by simp [decodeGroup0])
  case jp => exact (decode_group1 (fieldGroup_wordNNN _ _)).trans (by simp)
  case call => exact (decode_group2 (fieldGroup_wordNNN _ _)).trans (by simp)
  case seImm => exact (decode_group3 (fieldGroup_wordXKK _ _ _)).trans (by simp)
  case sneImm => exact (decode_group4 (fieldGroup_wordXKK _ _ _)).trans (by simp)
  case seReg => exact (decode_group5 (fieldGroup_wordXYN _ _ _ _)).trans (by simp)
  case ldImm => exact (decode_group6 (fieldGroup_wordXKK _ _ _)).trans (by simp)
  case addImm => exact (decode_group7 (fieldGroup_wordXKK _ _ _)).trans (by simp)
  case ldReg | orReg | andReg | xorReg | addReg | subReg | shr | subnReg | shl =>
    exact (decode_group8 (fieldGroup_wordXYN _ _ _ _)).trans (by simp [decodeGroup8])
  case sneReg => exact (decode_group9 (fieldGroup_wordXYN _ _ _ _)).trans (by simp)
  case ldI => exact (decode_groupA (fieldGroup_wordNNN _ _)).trans (by simp)
  case jpV0 => exact (decode_groupB (fieldGroup_wordNNN _ _)).trans (by simp)
  case rnd => exact (decode_groupC (fieldGroup_wordXKK _ _ _)).trans (by simp)
  case drw => exact (decode_groupD (fieldGroup_wordXYN _ _ _ _)).trans (by simp)
  case skp | sknp => exact (decode_groupE (fieldGroup_wordXKK _ _ _)).trans (by simp [decodeGroupE])
  case ldVxDt | ldVxK | ldDtVx | ldStVx | addI | ldF | ldB | storeRegs | loadRegs =>
    exact (decode_groupF (fieldGroup_wordXKK _ _ _)).trans (by simp [decodeGroupF])

/-! ### Encode after decode -/

theorem canonicalWord_of_group_ne {w : Word} {g : Nibble} (hg : fieldGroup w = g) (hne : g ≠ 0x0#4) :
    canonicalWord w = w := if_neg (hg ▸ hne)

/-- In group 0 the canonical form keeps the low byte. -/
theorem canonicalWord_of_group0 {w : Word} {kk : Byte} (hg : fieldGroup w = 0x0#4) (hkk : fieldKK w = kk) :
    canonicalWord w = wordXKK 0x0#4 0x0#4 kk := by
  rw [canonicalWord, if_pos hg, and_maskGroupKK, hg, hkk]

theorem wordNNN_eq_canonicalWord {w : Word} {g : Nibble} (hg : fieldGroup w = g) (hne : g ≠ 0x0#4) :
    wordNNN g (fieldNNN w) = canonicalWord w := by
  rw [canonicalWord_of_group_ne hg hne, ← hg, wordNNN_of_fields]

theorem wordXKK_eq_canonicalWord {w : Word} {g : Nibble} {kk : Byte} (hg : fieldGroup w = g) (hne : g ≠ 0x0#4)
    (hkk : fieldKK w = kk) : wordXKK g (fieldX w) kk = canonicalWord w := by
  rw [canonicalWord_of_group_ne hg hne, ← hg, ← hkk, wordXKK_of_fields]

theorem wordXYN_eq_canonicalWord {w : Word} {g n : Nibble} (hg : fieldGroup w = g) (hne : g ≠ 0x0#4)
    (hn : fieldN w = n) : wordXYN g (fieldX w) (fieldY w) n = canonicalWord w := by
  rw [canonicalWord_of_group_ne hg hne, ← hg, ← hn, wordXYN_of_fields]

/-- What decode may answer for `w`: an instruction whose word is the canonical form of `w`, or the error that carries
`w`. -/
def DecodeAnswer (w : Word) : Except DecodeError Instr → Prop
  | .ok i => encode i = canonicalWord w
  | .error e => e = .unknownOpcode w

theorem decodeAnswer_ite {w : Word} {c : Prop} [Decidable c] {a b : Except DecodeError Instr}
    (ha : c → DecodeAnswer w a) (hb : DecodeAnswer w b) : DecodeAnswer w (if c then a else b) := by
  split
  · exact ha ‹_›
  · exact hb

/-- Decode group by group: each test that succeeds names the word's function field, and past the last test is the error. -/
theorem decode_answer (w : Word) : DecodeAnswer w (decode w) := by
  rcases fieldGroup_cases w with hg | hg | hg | hg | hg | hg | hg | hg | hg | hg | hg | hg | hg | hg | hg | hg
  · rw [decode_group0 hg, decodeGroup0]
    iterate 2 refine decodeAnswer_ite (fun hkk => (canonicalWord_of_group0 hg hkk).symm) ?_
    rfl
  · rw [decode_group1 hg]; exact wordNNN_eq_canonicalWord hg (by decide)
  · rw [decode_group2 hg]; exact wordNNN_eq_canonicalWord hg (by decide)
  · rw [decode_group3 hg]; exact wordXKK_eq_canonicalWord hg (by decide) rfl
  · rw [decode_group4 hg]; exact wordXKK_eq_canonicalWord hg (by decide) rfl
  · rw [decode_group5 hg]; exact decodeAnswer_ite (wordXYN_eq_canonicalWord hg (by decide)) rfl
  · rw [decode_group6 hg]; exact wordXKK_eq_canonicalWord hg (by decide) rfl
  · rw [decode_group7 hg]; exact wordXKK_eq_canonicalWord hg (by decide) rfl
  · rw [decode_group8 hg, decodeGroup8]
    iterate 9 refine decodeAnswer_ite (wordXYN_eq_canonicalWord hg (by decide)) ?_
    rfl
  · rw [decode_group9 hg]; exact decodeAnswer_ite (wordXYN_eq_canonicalWord hg (by decide)) rfl
  · rw [decode_groupA hg]; exact wordNNN_eq_canonicalWord hg (by decide)
  · rw [decode_groupB hg]; exact wordNNN_eq_canonicalWord hg (by decide)
  · rw [decode_groupC hg]; exact wordXKK_eq_canonicalWord hg (by decide) rfl
  · rw [decode_groupD hg]; exact wordXYN_eq_canonicalWord hg (by decide) rfl
  · rw [decode_groupE hg, decodeGroupE]
    iterate 2 refine decodeAnswer_ite (wordXKK_eq_canonicalWord hg (by decide)) ?_
    rfl
  · rw [decode_groupF hg, decodeGroupF]
    iterate 9 refine decodeAnswer_ite (wordXKK_eq_canonicalWord hg (by decide)) ?_
    rfl

/-- What a word decodes to encodes to the word's canonical form. -/
theorem encode_eq_canonicalWord {w : Word} {i : Instr} (h : decode w = .ok i) : encode i = canonicalWord w := by
  have := decode_answer w
  rwa [h] at this

/-- A word that does not decode carries itself. -/
theorem decode_error {w : Word} {e : DecodeError} (h : decode w = .error e) : e = .unknownOpcode w := by
  have := decode_answer w
  rwa [h] at this

/-! ### The opcode map -/

/-- A row of mask `F0FF` fixes the group and the low byte of a word that selects it. -/
theorem decode_of_selects_groupKK {w p : Word} {f : Word → Instr}
    (hd : fieldGroup w = fieldGroup p → fieldKK w = fieldKK p → decode w = .ok (f w))
    (h : (OpcodeRow.mk 0xF0FF#16 p f).selects w = true) : decode w = .ok (f w) := by
  have hp : wordXKK (fieldGroup w) 0#4 (fieldKK w) = p := by rw [← and_maskGroupKK]; exact eq_of_beq h
  exact hd (by rw [← hp, fieldGroup_wordXKK]) (by rw [← hp, fieldKK_wordXKK])

/-- A row of mask `F00F` fixes the group and the low nibble of a word that selects it. -/
theorem decode_of_selects_groupN {w p : Word} {f : Word → Instr}
    (hd : fieldGroup w = fieldGroup p → fieldN w = fieldN p → decode w = .ok (f w))
    (h : (OpcodeRow.mk 0xF00F#16 p f).selects w = true) : decode w = .ok (f w) := by
  have hp : wordXYN (fieldGroup w) 0#4 0#4 (fieldN w) = p := by rw [← and_maskGroupN]; exact eq_of_beq h
  exact hd (by rw [← hp, fieldGroup_wordXYN]) (by rw [← hp, fieldN_wordXYN])

/-- R95, row by row in the map's order: a word that selects a row decodes to its instruction. -/
theorem decode_of_selects (w : Word) :
    ∀ row ∈ opcodeMap, row.selects w = true → decode w = .ok (row.instr w) := by
  simp only [opcodeMap, List.cons_append, List.nil_append, List.forall_mem_cons, List.not_mem_nil, false_implies,
    implies_true, and_true]
  exact ⟨
    decode_of_selects_groupKK fun hg (hk : fieldKK w = 0xE0#8) => (decode_group0 hg).trans (by simp [decodeGroup0, hk]),
    decode_of_selects_groupKK fun hg (hk : fieldKK w = 0xEE#8) => (decode_group0 hg).trans (by simp [decodeGroup0, hk]),
    fun h => decode_group1 ((selects_maskGroup w _ _).1 h),
    fun h => decode_group2 ((selects_maskGroup w _ _).1 h),
    fun h => decode_group3 ((selects_maskGroup w _ _).1 h),
    fun h => decode_group4 ((selects_maskGroup w _ _).1 h),
    decode_of_selects_groupN fun hg (hn : fieldN w = 0x0#4) => (decode_group5 hg).trans (if_pos hn),
    fun h => decode_group6 ((selects_maskGroup w _ _).1 h),
    fun h => decode_group7 ((selects_maskGroup w _ _).1 h),
    decode_of_selects_groupN fun hg (hn : fieldN w = 0x0#4) => (decode_group8 hg).trans (by simp [decodeGroup8, hn]),
    decode_of_selects_groupN fun hg (hn : fieldN w = 0x1#4) => (decode_group8 hg).trans (by simp [decodeGroup8, hn]),
    decode_of_selects_groupN fun hg (hn : fieldN w = 0x2#4) => (decode_group8 hg).trans (by simp [decodeGroup8, hn]),
    decode_of_selects_groupN fun hg (hn : fieldN w = 0x3#4) => (decode_group8 hg).trans (by simp [decodeGroup8, hn]),
    decode_of_selects_groupN fun hg (hn : fieldN w = 0x4#4) => (decode_group8 hg).trans (by simp [decodeGroup8, hn]),
    decode_of_selects_groupN fun hg (hn : fieldN w = 0x5#4) => (decode_group8 hg).trans (by simp [decodeGroup8, hn]),
    decode_of_selects_groupN fun hg (hn : fieldN w = 0x6#4) => (decode_group8 hg).trans (by simp [decodeGroup8, hn]),
    decode_of_selects_groupN fun hg (hn : fieldN w = 0x7#4) => (decode_group8 hg).trans (by simp [decodeGroup8, hn]),
    decode_of_selects_groupN fun hg (hn : fieldN w = 0xE#4) => (decode_group8 hg).trans (by simp [decodeGroup8, hn]),
    decode_of_selects_groupN fun hg (hn : fieldN w = 0x0#4) => (decode_group9 hg).trans (if_pos hn),
    fun h => decode_groupA ((selects_maskGroup w _ _).1 h),
    fun h => decode_groupB ((selects_maskGroup w _ _).1 h),
    fun h => decode_groupC ((selects_maskGroup w _ _).1 h),
    fun h => decode_groupD ((selects_maskGroup w _ _).1 h),
    decode_of_selects_groupKK fun hg (hk : fieldKK w = 0x9E#8) => (decode_groupE hg).trans (by simp [decodeGroupE, hk]),
    decode_of_selects_groupKK fun hg (hk : fieldKK w = 0xA1#8) => (decode_groupE hg).trans (by simp [decodeGroupE, hk]),
    decode_of_selects_groupKK fun hg (hk : fieldKK w = 0x07#8) => (decode_groupF hg).trans (by simp [decodeGroupF, hk]),
    decode_of_selects_groupKK fun hg (hk : fieldKK w = 0x0A#8) => (decode_groupF hg).trans (by simp [decodeGroupF, hk]),
    decode_of_selects_groupKK fun hg (hk : fieldKK w = 0x15#8) => (decode_groupF hg).trans (by simp [decodeGroupF, hk]),
    decode_of_selects_groupKK fun hg (hk : fieldKK w = 0x18#8) => (decode_groupF hg).trans (by simp [decodeGroupF, hk]),
    decode_of_selects_groupKK fun hg (hk : fieldKK w = 0x1E#8) => (decode_groupF hg).trans (by simp [decodeGroupF, hk]),
    decode_of_selects_groupKK fun hg (hk : fieldKK w = 0x29#8) => (decode_groupF hg).trans (by simp [decodeGroupF, hk]),
    decode_of_selects_groupKK fun hg (hk : fieldKK w = 0x33#8) => (decode_groupF hg).trans (by simp [decodeGroupF, hk]),
    decode_of_selects_groupKK fun hg (hk : fieldKK w = 0x55#8) => (decode_groupF hg).trans (by simp [decodeGroupF, hk]),
    decode_of_selects_groupKK fun hg (hk : fieldKK w = 0x65#8) => (decode_groupF hg).trans (by simp [decodeGroupF, hk])⟩

/-- Every mask of the map lies inside the bits that the canonical form keeps. -/
theorem opcodeMap_mask_and : ∀ row ∈ opcodeMap, 0xF0FF#16 &&& row.mask = row.mask := by decide

theorem selects_canonicalWord {w : Word} {row : OpcodeRow} (hrow : row ∈ opcodeMap) :
    row.selects (canonicalWord w) = row.selects w := by
  unfold canonicalWord
  split
  · rw [OpcodeRow.selects, BitVec.and_assoc, opcodeMap_mask_and row hrow]; rfl
  · rfl

/-- The masks and patterns of the map's rows: what a word is compared with. -/
def opcodeMasks : List (Word × Word) := opcodeMap.map fun row => (row.mask, row.pattern)

theorem exists_selects_of_and_eq {w m p : Word} (hmem : (m, p) ∈ opcodeMasks) (hw : w &&& m = p) :
    ∃ row ∈ opcodeMap, row.selects w = true := by
  obtain ⟨row, hrow, hmp⟩ := List.mem_map.1 hmem
  cases hmp
  exact ⟨row, hrow, beq_iff_eq.2 hw⟩

theorem exists_selects_of_group {w : Word} {g : Nibble} (hg : fieldGroup w = g)
    (hmem : (0xF000#16, wordNNN g 0#12) ∈ opcodeMasks) : ∃ row ∈ opcodeMap, row.selects w = true :=
  exists_selects_of_and_eq hmem (by rw [and_maskGroup, hg])

theorem exists_selects_of_groupKK {w : Word} {g : Nibble} {kk : Byte} (hg : fieldGroup w = g) (hkk : fieldKK w = kk)
    (hmem : (0xF0FF#16, wordXKK g 0#4 kk) ∈ opcodeMasks) : ∃ row ∈ opcodeMap, row.selects w = true :=
  exists_selects_of_and_eq hmem (by rw [and_maskGroupKK, hg, hkk])

theorem exists_selects_of_groupN {w : Word} {g n : Nibble} (hg : fieldGroup w = g) (hn : fieldN w = n)
    (hmem : (0xF00F#16, wordXYN g 0#4 0#4 n) ∈ opcodeMasks) : ∃ row ∈ opcodeMap, row.selects w = true :=
  exists_selects_of_and_eq hmem (by rw [and_maskGroupN, hg, hn])

/-- The canonical word of every instruction selects a row of the map. -/
theorem exists_selects_encode (i : Instr) : ∃ row ∈ opcodeMap, row.selects (encode i) = true := by
  cases i
  case jp | call | ldI | jpV0 => exact exists_selects_of_group (fieldGroup_wordNNN _ _) (by decide)
  case seImm | sneImm | ldImm | addImm | rnd => exact exists_selects_of_group (fieldGroup_wordXKK _ _ _) (by decide)
  case drw => exact exists_selects_of_group (fieldGroup_wordXYN _ _ _ _) (by decide)
  case seReg | ldReg | orReg | andReg | xorReg | addReg | subReg | shr | subnReg | shl | sneReg =>
    exact exists_selects_of_groupN (fieldGroup_wordXYN _ _ _ _) (fieldN_wordXYN _ _ _ _) (by decide)
  case cls | ret | skp | sknp | ldVxDt | ldVxK | ldDtVx | ldStVx | addI | ldF | ldB | storeRegs | loadRegs =>
    exact exists_selects_of_groupKK (fieldGroup_wordXKK _ _ _) (fieldKK_wordXKK _ _ _) (by decide)

/-- A word that selects no row does not decode: what it decoded to would have a row, and the word would select it. -/
theorem decode_of_selects_none {w : Word} (h : ∀ row ∈ opcodeMap, row.selects w = false) :
    decode w = .error (.unknownOpcode w) := by
  cases hd : decode w with
  | error e => rw [decode_error hd]
  | ok i =>
    obtain ⟨row, hrow, hsel⟩ := exists_selects_encode i
    rw [encode_eq_canonicalWord hd, selects_canonicalWord hrow, h row hrow] at hsel
    cases hsel

/-- Two patterns that agree where both masks look are one pattern: a finite check of the map. -/
theorem opcodeMap_patterns_disjoint :
    ∀ row ∈ opcodeMap, ∀ other ∈ opcodeMap,
      row.pattern &&& other.mask = other.pattern &&& row.mask → row.pattern = other.pattern := by decide

theorem pattern_eq_of_selects {w : Word} {row other : OpcodeRow} (hrow : row ∈ opcodeMap) (hother : other ∈ opcodeMap)
    (hw : row.selects w = true) (hw' : other.selects w = true) : row.pattern = other.pattern := by
  refine opcodeMap_patterns_disjoint row hrow other hother ?_
  rw [← eq_of_beq hw, ← eq_of_beq hw', BitVec.and_assoc, BitVec.and_assoc, BitVec.and_comm row.mask]

/-! ### The assembler's lines -/

@[simp] theorem reg?_toNat (x : Nibble) : reg? x.toNat = some x := by simp [reg?, x.isLt]
@[simp] theorem nibble?_toNat (n : Nibble) : nibble? n.toNat = some n := by simp [nibble?, n.isLt]
@[simp] theorem byte?_toNat (kk : Byte) : byte? kk.toNat = some kk := by simp [byte?, kk.isLt]
@[simp] theorem addr?_toNat (nnn : Addr) : addr? nnn.toNat = some nnn := by simp [addr?, nnn.isLt]
@[simp] theorem xkk_toNat (f : Nibble → Byte → Instr) (x : Nibble) (kk : Byte) :
    xkk f x.toNat kk.toNat = some (f x kk) := by simp [xkk]
@[simp] theorem xy_toNat (f : Nibble → Nibble → Instr) (x y : Nibble) :
    xy f x.toNat y.toNat = some (f x y) := by simp [xy]

theorem map_addr?_toNat (f : Addr → Instr) (nnn : Addr) :
    (addr? nnn.toNat).map f = some (f nnn) := by simp
theorem map_reg?_toNat (f : Nibble → Instr) (x : Nibble) : (reg? x.toNat).map f = some (f x) := by simp

/-- The line written for an instruction stands for it: every operand it prints is inside its range. -/
theorem instr_line (i : Instr) : i.line.instr = some i := by
  cases i
  case cls | ret => rfl
  case jp | jpV0 | call | ldI => exact map_addr?_toNat _ _
  case seImm | sneImm | ldImm | addImm | rnd => exact xkk_toNat _ _ _
  case seReg | sneReg | ldReg | orReg | andReg | xorReg | addReg | subReg | shr | subnReg | shl =>
    exact xy_toNat _ _ _
  case drw => simp [Instr.line, Line.instr]
  case skp | sknp | ldVxDt | ldVxK | ldDtVx | ldStVx | addI | ldF | ldB | storeRegs | loadRegs =>
    exact map_reg?_toNat _ _

theorem assembleLine_line (i : Instr) : assembleLine i.line = some (bytesOfWord (encode i)) := by
  simp only [assembleLine, instr_line]

/-- The bytes of a word that decodes are read back, whatever follows them. -/
theorem decodeBytes_bytesOfWord {w : Word} {i : Instr} (h : decode w = .ok i) (rest : List Byte) :
    decodeBytes (bytesOfWord w ++ rest) = .ok (i, rest) := by
  simp only [bytesOfWord, List.cons_append, List.nil_append, decodeBytes, wordOfBytes_bytes, h]

/-! ### The statements -/

/-- Settles O1: the branches of decode, one for each constructor. -/
theorem decodeInvertsEncode : Obligations.DecodeInvertsEncode := decode_encode

/-- Settles O2: a word is its fields, and in group 0 the low byte is all that decode looks at. -/
theorem encodeInvertsDecode : Obligations.EncodeInvertsDecode := fun _ _ => encode_eq_canonicalWord

/-- Settles O3: the rows one by one, the lack of a row by the round trip, and disjointness by a check of the masks. -/
theorem decodeFollowsOpcodeMap : Obligations.DecodeFollowsOpcodeMap :=
  ⟨decode_of_selects, fun _ => decode_of_selects_none, fun _ _ hrow _ hother => pattern_eq_of_selects hrow hother⟩

/-- Settles O4: fifteen closed evaluations of decode. -/
theorem sampleWordsDecode : Obligations.SampleWordsDecode := by
  unfold Obligations.SampleWordsDecode
  decide

/-- Settles O5: the line's operands are in range, and the bytes of the canonical word decode back. -/
theorem assembledLineDecodesBack : Obligations.AssembledLineDecodesBack := fun i rest =>
  ⟨instr_line i, assembleLine_line i, decodeBytes_bytesOfWord (decode_encode i) rest⟩

end Sys2Proof
end

