-- ==== Sys2Proof/Proofs/Effects.lean ====
section
/-!
What an instruction can do, said once for all of them: `Effect i s t` lists the shapes of a next state, `effect_of_exec`
says that every instruction has one of them, and each statement of what changes what is a case split over the shapes.
-/
namespace Sys2Proof.Machine

/-! ### Operands as numbers -/

theorem glyphAddr_toNat (b : Byte) : (glyphAddr b).toNat = b.toNat * 5 := by
  have := b.isLt
  rw [glyphAddr, BitVec.toNat_ofNat, Nat.mod_eq_of_lt (by omega)]

theorem addrOperand_le (nnn : Addr) : (addrOperand nnn).toNat ≤ 4095 :=
  addrOperand_toNat nnn ▸ Nat.le_of_lt_succ nnn.isLt

theorem glyphAddr_le (b : Byte) : (glyphAddr b).toNat ≤ 4095 := by
  have := b.isLt
  rw [glyphAddr_toNat]
  omega

theorem add_one_toNat {k : Nibble} (h : k ≠ 15#4) : (k + 1#4).toNat = k.toNat + 1 := by bv_omega

theorem sub_one_toNat {k : Nibble} (h : k ≠ 0#4) : (k - 1#4).toNat + 1 = k.toNat := by bv_omega

theorem add_two_toNat {w : Word} (h : w.toNat ≤ 4095) : (w + 2#16).toNat = w.toNat + 2 := by bv_omega

theorem add_four_toNat {w : Word} (h : w.toNat ≤ 4095) : (w + 4#16).toNat = w.toNat + 4 := by bv_omega

/-- The number a skip writes to `PC`. -/
theorem skipIf_pc_toNat (c : Bool) {s : State} (h : s.pc.toNat ≤ 4095) :
    (skipIf c s).pc.toNat = if c = true then s.pc.toNat + 4 else s.pc.toNat + 2 := by
  cases c
  · exact add_two_toNat h
  · exact add_four_toNat h

/-! ### Register writes -/

theorem setReg_reg_of_ne (s : State) {x r : Nibble} (b : Byte) (h : r ≠ x) : (s.setReg x b).reg r = s.reg r := by
  rw [State.reg_setReg, if_neg h]

/-- Loading registers changes nothing but the registers. -/
theorem setRegsFrom_eq (s : State) (k : Nat) (bs : List Byte) :
    s.setRegsFrom k bs = { s with v := (s.setRegsFrom k bs).v } := by
  induction bs generalizing s k with
  | nil => rfl
  | cons b rest ih => rw [State.setRegsFrom, ih]; rfl

/-- What Fx65 leaves where its range is inside memory (R197). -/
def loadAtIndex (x : Nibble) (s : State) : State :=
  (s.setRegsFrom 0 (Memory.readRange s.mem s.i.toNat (moveCount x))).next

theorem loadAtIndex_reg_of_le {x k : Nibble} (s : State) (hk : k.toNat ≤ x.toNat) :
    (loadAtIndex x s).reg k = Memory.read s.mem (s.i.toNat + k.toNat) := by
  have hx := x.isLt
  have hlen : (Memory.readRange s.mem s.i.toNat (moveCount x)).length = x.toNat + 1 := Memory.length_readRange _ _ _
  rw [loadAtIndex, State.next_reg, setRegsFrom_reg _ _ _ (by omega), dif_pos (by omega), Memory.getElem_readRange]
  rfl

theorem loadAtIndex_reg_of_lt {x k : Nibble} (s : State) (hk : x.toNat < k.toNat) :
    (loadAtIndex x s).reg k = s.reg k := by
  have hx := x.isLt
  have hlen : (Memory.readRange s.mem s.i.toNat (moveCount x)).length = x.toNat + 1 := Memory.length_readRange _ _ _
  rw [loadAtIndex, State.next_reg, setRegsFrom_reg _ _ _ (by omega), dif_neg (by omega)]

/-! ### Calls and returns, by the depth of the stack -/

/-- What CALL leaves where the stack has room (R141). -/
def afterCall (nnn : Addr) (s : State) : State :=
  ((s.setSp (s.sp + 1#4)).setStackSlot (s.sp + 1#4) s.pc).setPc (addrOperand nnn)

@[simp] theorem afterCall_sp (nnn : Addr) (s : State) : (afterCall nnn s).sp = s.sp + 1#4 := rfl

@[simp] theorem afterCall_mem (nnn : Addr) (s : State) : (afterCall nnn s).mem = s.mem := rfl
@[simp] theorem afterCall_reg (nnn : Addr) (s : State) (r : Nibble) : (afterCall nnn s).reg r = s.reg r := rfl

/-- CALL writes its own address into the slot above the newest, and no other slot. -/
theorem afterCall_stackSlot (nnn : Addr) (s : State) (k : Nibble) :
    (afterCall nnn s).stackSlot k = if k = s.sp + 1#4 then s.pc else s.stackSlot k :=
  State.stackSlot_setStackSlot _ _ k _

theorem afterCall_stackSlot_sp (nnn : Addr) (s : State) :
    (afterCall nnn s).stackSlot (afterCall nnn s).sp = s.pc := State.setStackSlot_stackSlot_same _ _ _

theorem afterCall_stackSlot_of_ne {nnn : Addr} {s : State} {k : Nibble} (h : k ≠ (afterCall nnn s).sp) :
    (afterCall nnn s).stackSlot k = s.stackSlot k := (afterCall_stackSlot nnn s k).trans (if_neg h)

theorem exec_call_of_full (nnn : Addr) {s : State} (h : s.sp = 15#4) :
    exec (.call nnn) s = .next (raise .stackOverflow s) := if_pos h

theorem exec_call_of_room (nnn : Addr) {s : State} (h : s.sp ≠ 15#4) :
    exec (.call nnn) s = .next (afterCall nnn s) := if_neg h

theorem exec_ret_of_empty {s : State} (h : s.sp = 0#4) : exec .ret s = .next (raise .stackUnderflow s) := if_pos h

theorem exec_ret_of_held {s : State} (h : s.sp ≠ 0#4) :
    exec .ret s = .next ((s.setPc (s.stackSlot s.sp + 2#16)).setSp (s.sp - 1#4)) := if_neg h

/-! ### The shapes of a next state -/

/-- Why an instruction raises a failure (R212 to R215). -/
inductive HaltCause (s : State) : Instr → HaltReason → Prop
  | ret (h : s.sp = 0#4) : HaltCause s .ret .stackUnderflow
  | call (nnn : Addr) (h : s.sp = 15#4) : HaltCause s (.call nnn) .stackOverflow
  | key {i : Instr} (h : i.isKeyInstr = true) : HaltCause s i (.opcodeNotImplemented (encode i))
  | drw (x y n : Nibble) (h : 4096 < s.i.toNat + n.toNat) :
      HaltCause s (.drw x y n) (.outOfBounds (max s.i.toNat 4096))
  | ldB (x : Nibble) (h : 4096 < s.i.toNat + 3) : HaltCause s (.ldB x) (.outOfBounds (max s.i.toNat 4096))
  | storeRegs (x : Nibble) (h : 4096 < s.i.toNat + moveCount x) :
      HaltCause s (.storeRegs x) (.outOfBounds (max s.i.toNat 4096))
  | loadRegs (x : Nibble) (h : 4096 < s.i.toNat + moveCount x) :
      HaltCause s (.loadRegs x) (.outOfBounds (max s.i.toNat 4096))

/-- The shapes of the state an instruction leaves. A jump or skip writes `PC` alone; a register write changes no register
that `writesReg` does not list, and may count a draw. -/
inductive Effect : Instr → State → State → Prop
  | halt {i : Instr} {s : State} {r : HaltReason} (cause : HaltCause s i r) : Effect i s (raise r s)
  | branch {i : Instr} {s : State} {w : Word} (hw : s.pc.toNat ≤ 4095 → w.toNat = pcAfter s i) :
      Effect i s (s.setPc w)
  | call {nnn : Addr} {s : State} (hsp : s.sp ≠ 15#4) : Effect (.call nnn) s (afterCall nnn s)
  | ret {s : State} (hsp : s.sp ≠ 0#4) : Effect .ret s ((s.setPc (s.stackSlot s.sp + 2#16)).setSp (s.sp - 1#4))
  | regs {i : Instr} {s : State} {v : Vector Byte 16} {draws : Nat} (hpc : pcAfter s i = s.pc.toNat + 2)
      (hv : ∀ r, writesReg r i = false → State.reg { s with v := v, draws := draws } r = s.reg r) :
      Effect i s (State.next { s with v := v, draws := draws })
  | ldI {nnn : Addr} {s : State} : Effect (.ldI nnn) s (s.setI (addrOperand nnn)).next
  | addI {x : Nibble} {s : State} : Effect (.addI x) s (s.setI (s.i + wideOperand (s.reg x))).next
  | ldF {x : Nibble} {s : State} : Effect (.ldF x) s (s.setI (glyphAddr (s.reg x))).next
  | cls {s : State} : Effect .cls s (s.setDisplay s.display.clear).next
  | drw {x y n : Nibble} {s : State} : Effect (.drw x y n) s (drawSprite x y n s)
  | ldDtVx {x : Nibble} {s : State} : Effect (.ldDtVx x) s (s.setDt (s.reg x)).next
  | ldStVx {x : Nibble} {s : State} : Effect (.ldStVx x) s (s.setSt (s.reg x)).next
  | ldB {x : Nibble} {s : State} (h : s.i.toNat + 3 ≤ 4096) :
      Effect (.ldB x) s (storeAtIndex (decimalDigits (s.reg x)) s)
  | storeRegs {x : Nibble} {s : State} (h : s.i.toNat + moveCount x ≤ 4096) :
      Effect (.storeRegs x) s (storeAtIndex (s.regsUpTo x) s)

/-- An instruction that writes `V[x]` alone. -/
theorem Effect.setReg {i : Instr} {s : State} {x : Nibble} {b : Byte} (hpc : pcAfter s i = s.pc.toNat + 2)
    (hi : ∀ r, writesReg r i = false → r ≠ x) : Effect i s (s.setReg x b).next :=
  .regs hpc fun r hr => setReg_reg_of_ne s b (hi r hr)

/-- An instruction that writes a flag to `VF` and then `V[x]`. -/
theorem Effect.setFlag_setReg {i : Instr} {s : State} {x : Nibble} {flag b : Byte} (hpc : pcAfter s i = s.pc.toNat + 2)
    (hi : ∀ r, writesReg r i = false → r ≠ x ∧ r ≠ vf) : Effect i s ((s.setReg vf flag).setReg x b).next :=
  .regs hpc fun r hr => by
    obtain ⟨hx, hvf⟩ := hi r hr
    exact (setReg_reg_of_ne _ b hx).trans (setReg_reg_of_ne s flag hvf)

theorem Effect.loadAtIndex {x : Nibble} {s : State} : Effect (.loadRegs x) s (loadAtIndex x s) := by
  have hkeep : ∀ r, writesReg r (.loadRegs x) = false → (Machine.loadAtIndex x s).reg r = s.reg r := fun r hr =>
    loadAtIndex_reg_of_lt s (by simpa [writesReg] using hr)
  rw [Machine.loadAtIndex, setRegsFrom_eq] at hkeep ⊢
  exact .regs rfl hkeep

/-- A range instruction halts where its range leaves memory, and else has the shape of its work. -/
theorem Effect.withRange {i : Instr} {s : State} {count : Nat} {go : State → State}
    (hin : s.i.toNat + count ≤ 4096 → Effect i s (go s))
    (hout : 4096 < s.i.toNat + count → HaltCause s i (.outOfBounds (max s.i.toNat 4096))) :
    Effect i s (withRange count s go) := by
  rcases withRange_cases count s go with ⟨h, he⟩ | ⟨h, he⟩ <;> rw [he]
  · exact hin h
  · exact .halt (hout h)

/-- A skip, once its condition and the table's row for it are known to agree. -/
theorem Effect.skipIf {i : Instr} {s : State} {c : Bool}
    (hi : (if c = true then s.pc.toNat + 4 else s.pc.toNat + 2) = pcAfter s i) : Effect i s (skipIf c s) :=
  .branch fun hpc => (skipIf_pc_toNat c hpc).trans hi

/-- Every instruction has one of the shapes. -/
theorem effect_of_exec {i : Instr} {s t : State} (h : exec i s = .next t) : Effect i s t := by
  cases i
  case cls => cases h; exact .cls
  case ret =>
    by_cases hsp : s.sp = 0#4
    · cases (exec_ret_of_empty hsp).symm.trans h; exact .halt (.ret hsp)
    · cases (exec_ret_of_held hsp).symm.trans h; exact .ret hsp
  case call nnn =>
    by_cases hsp : s.sp = 15#4
    · cases (exec_call_of_full nnn hsp).symm.trans h; exact .halt (.call nnn hsp)
    · cases (exec_call_of_room nnn hsp).symm.trans h; exact .call hsp
  case jp nnn => cases h; exact .branch fun _ => addrOperand_toNat nnn
  case jpV0 nnn => cases h; exact .branch fun _ => addrOperand_add_wideOperand_toNat nnn _
  case seImm | sneImm | seReg | sneReg => cases h; exact .skipIf (by simp [pcAfter, ite_not])
  case ldImm | addImm | ldReg | orReg | andReg | xorReg | ldVxDt =>
    cases h; exact .setReg rfl fun r hr => by simpa [writesReg] using hr
  case rnd =>
    cases h; exact .regs rfl fun r hr => setReg_reg_of_ne s.countDraw _ (by simpa [writesReg] using hr)
  case addReg | subReg | shr | subnReg | shl =>
    cases h; exact .setFlag_setReg rfl fun r hr => by simpa [writesReg] using hr
  case ldI => cases h; exact .ldI
  case addI => cases h; exact .addI
  case ldF => cases h; exact .ldF
  case ldDtVx => cases h; exact .ldDtVx
  case ldStVx => cases h; exact .ldStVx
  case skp | sknp | ldVxK => cases h; exact .halt (.key rfl)
  case drw x y n => cases h; exact .withRange (fun _ => .drw) (.drw x y n)
  case ldB x => cases h; exact .withRange .ldB (.ldB x)
  case storeRegs x => cases h; exact .withRange .storeRegs (.storeRegs x)
  case loadRegs x => cases h; exact .withRange (go := loadAtIndex x) (fun _ => .loadAtIndex) (.loadRegs x)

end Sys2Proof.Machine
end

