-- ==== Sys2Proof/Proofs/Frames.lean ====
section
/-!
What can change what (10_state.md, 20_memory.md, 60_exceptions.md): each statement is one split over the shapes of
`Effect`, where all shapes but those named leave the part in question as it was.
-/
namespace Sys2Proof.Machine

/-! ### Every instruction answers a next state -/

theorem exists_exec_next (i : Instr) (s : State) : ∃ t, exec i s = .next t := by
  cases i
  case ret =>
    by_cases hsp : s.sp = 0#4
    · exact ⟨_, exec_ret_of_empty hsp⟩
    · exact ⟨_, exec_ret_of_held hsp⟩
  case call nnn =>
    by_cases hsp : s.sp = 15#4
    · exact ⟨_, exec_call_of_full nnn hsp⟩
    · exact ⟨_, exec_call_of_room nnn hsp⟩
  all_goals exact ⟨_, rfl⟩

theorem exists_step_next (s : State) : ∃ t, step s = .next t := by
  rcases step_cases s with ⟨_, -, hs⟩ | ⟨-, _, -, hs⟩ | ⟨-, _, _, -, -, hs⟩ | ⟨i, -, hs⟩
  · exact ⟨_, hs⟩
  · exact ⟨_, hs⟩
  · exact ⟨_, hs⟩
  · obtain ⟨u, hu⟩ := exists_exec_next i (betweenTicks s)
    exact ⟨endOfTick u, by rw [hs, hu, checked_next]⟩

/-- Settles O8: every arm of exec answers a next state, and every case of a step does. -/
theorem everyStepAnswersNext : Obligations.EveryStepAnswersNext := ⟨exists_exec_next, exists_step_next⟩

/-! ### Halting -/

/-- Only a raise halts a running machine. -/
theorem haltCause_of_effect {i : Instr} {s t : State} {r : HaltReason} (he : Effect i s t) (hs : s.runState = .running)
    (ht : t.runState = .halted r) : HaltCause s i r := by
  cases he with
  | halt cause => cases ht; exact cause
  | _ => exact nomatch hs.symm.trans ht

/-- Settles O13: the causes of a raise, one by one. -/
theorem haltReasonsNameTheirCause : Obligations.HaltReasonsNameTheirCause := fun i s t r hs he ht => by
  cases haltCause_of_effect (effect_of_exec he) hs ht with
  | ret h => exact .inl ⟨rfl, rfl, h⟩
  | call nnn h => exact .inr (.inl ⟨rfl, ⟨nnn, rfl⟩, h⟩)
  | key h => exact .inr (.inr (.inl ⟨rfl, h⟩))
  | drw x y n h => exact .inr (.inr (.inr ⟨rfl, .inl ⟨x, y, n, rfl, h⟩⟩))
  | ldB x h => exact .inr (.inr (.inr ⟨rfl, .inr (.inl ⟨x, rfl, by omega⟩)⟩))
  | storeRegs x h =>
    exact .inr (.inr (.inr ⟨rfl, .inr (.inr ⟨x, .inl rfl, by simp only [moveCount] at h; omega⟩)⟩))
  | loadRegs x h =>
    exact .inr (.inr (.inr ⟨rfl, .inr (.inr ⟨x, .inr rfl, by simp only [moveCount] at h; omega⟩)⟩))

/-! ### Timers, stack, memory, registers, index, display -/

/-- Settles O16: of all shapes the two timer loads alone write a timer, each its own. -/
theorem timersWrittenOnlyByTheirLoads : Obligations.TimersWrittenOnlyByTheirLoads := fun i s t he => by
  cases effect_of_exec he with
  | ldDtVx => exact ⟨.inr ⟨_, rfl, rfl⟩, .inl rfl⟩
  | ldStVx => exact ⟨.inl rfl, .inr ⟨_, rfl, rfl⟩⟩
  | _ => exact ⟨.inl rfl, .inl rfl⟩

/-- Settles O20: of all shapes the call and the return alone touch the stack. -/
theorem stackChangesOnlyByCallAndRet : Obligations.StackChangesOnlyByCallAndRet := fun i s t he => by
  cases effect_of_exec he with
  | call hsp =>
    exact .inr (.inl ⟨_, rfl, add_one_toNat hsp, afterCall_stackSlot_sp _ s, fun _ => afterCall_stackSlot_of_ne⟩)
  | ret hsp => exact .inr (.inr ⟨rfl, sub_one_toNat hsp, fun _ => rfl⟩)
  | _ => exact .inl ⟨rfl, fun _ => rfl⟩

theorem length_decimalDigits (b : Byte) : (decimalDigits b).length = 3 := rfl

/-- A store at `I` leaves every byte outside its range. -/
theorem mem_range_of_storeAtIndex {s : State} {bytes : List Byte} {a : Nat}
    (h : Memory.read (storeAtIndex bytes s).mem a ≠ Memory.read s.mem a) :
    s.i.toNat ≤ a ∧ a < s.i.toNat + bytes.length := by
  by_contra hout
  exact h (Memory.read_writeRange_outside s.mem (by omega))

/-- Settles O21: of all shapes the two stores alone write memory, and a store leaves every byte outside its range. -/
theorem memoryChangesOnlyByStores : Obligations.MemoryChangesOnlyByStores := fun i s t a he hne => by
  cases effect_of_exec he with
  | @ldB x =>
    have hr := mem_range_of_storeAtIndex hne
    rw [length_decimalDigits] at hr
    exact .inl ⟨x, rfl, hr.1, by omega⟩
  | @storeRegs x =>
    have hr := mem_range_of_storeAtIndex hne
    rw [length_regsUpTo] at hr
    exact .inr ⟨x, rfl, hr.1, by omega⟩
  | _ => exact absurd rfl hne

/-- Settles O22: a register write changes only listed registers, DRW writes `VF`, and no other shape writes a register. -/
theorem registersChangeOnlyAsListed : Obligations.RegistersChangeOnlyAsListed := fun i s t r he hr => by
  cases effect_of_exec he with
  | regs hpc hv => exact hv r hr
  | drw => exact setReg_reg_of_ne _ _ (by simpa [writesReg] using hr)
  | _ => rfl

theorem drawSprite_size (x y n : Nibble) (s : State) :
    (drawSprite x y n s).display.width = s.display.width ∧ (drawSprite x y n s).display.height = s.display.height :=
  Display.draw_size _ _ _ _

/-- Settles O23: of all shapes three write `I`, of which two stay below 4096, and two write the display, each keeping its
size. -/
theorem indexAndDisplayWriters : Obligations.IndexAndDisplayWriters := fun i s t he => by
  cases effect_of_exec he with
  | @ldI nnn =>
    exact ⟨.inr (.inl ⟨nnn, rfl⟩), fun _ hgt => absurd hgt (addrOperand_le nnn).not_gt, .inl rfl, rfl, rfl⟩
  | @addI x => exact ⟨.inr (.inr (.inl ⟨x, rfl⟩)), fun _ _ => ⟨x, rfl⟩, .inl rfl, rfl, rfl⟩
  | @ldF x =>
    exact ⟨.inr (.inr (.inr ⟨x, rfl⟩)), fun _ hgt => absurd hgt (glyphAddr_le _).not_gt, .inl rfl, rfl, rfl⟩
  | cls => exact ⟨.inl rfl, fun h hgt => absurd hgt h.not_gt, .inr (.inl rfl), rfl, rfl⟩
  | @drw x y n =>
    exact ⟨.inl rfl, fun h hgt => absurd hgt h.not_gt, .inr (.inr ⟨x, y, n, rfl⟩), drawSprite_size x y n s⟩
  | _ => exact ⟨.inl rfl, fun h hgt => absurd hgt h.not_gt, .inl rfl, rfl, rfl⟩

/-! ### The sound timer is never read -/

theorem setRegsFrom_setSt (s : State) (b : Byte) (k : Nat) (bs : List Byte) :
    (s.setSt b).setRegsFrom k bs = (s.setRegsFrom k bs).setSt b := by
  rw [setRegsFrom_eq, setRegsFrom_eq s]
  have hv : ((s.setSt b).setRegsFrom k bs).v = (s.setRegsFrom k bs).v := by
    induction bs generalizing s k with
    | nil => rfl
    | cons c rest ih => exact ih (s.setReg (BitVec.ofNat 4 k) c) (k + 1)
  rw [hv]
  rfl

/-- A range instruction that does not read `ST` in its work does not read it in its check. -/
theorem withRange_setSt {count : Nat} {s : State} {b : Byte} {go go' : State → State}
    (hgo : go' (s.setSt b) = (go s).setSt b) : withRange count (s.setSt b) go' = (withRange count s go).setSt b := by
  unfold withRange
  rw [State.setSt_i]
  split
  · rfl
  · exact hgo

/-- Settles O24: the other value of `ST` goes through every instruction unread; Fx18 overwrites it. -/
theorem soundTimerIsNeverRead : Obligations.SoundTimerIsNeverRead := fun i s t b he => by
  cases i
  case ret =>
    by_cases hsp : s.sp = 0#4
    · cases (exec_ret_of_empty hsp).symm.trans he; exact ⟨b, exec_ret_of_empty hsp⟩
    · cases (exec_ret_of_held hsp).symm.trans he; exact ⟨b, exec_ret_of_held hsp⟩
  case call nnn =>
    by_cases hsp : s.sp = 15#4
    · cases (exec_call_of_full nnn hsp).symm.trans he; exact ⟨b, exec_call_of_full nnn hsp⟩
    · cases (exec_call_of_room nnn hsp).symm.trans he; exact ⟨b, exec_call_of_room nnn hsp⟩
  case ldStVx x => cases he; exact ⟨s.reg x, rfl⟩
  case drw | ldB | storeRegs => cases he; exact ⟨b, congrArg _ (withRange_setSt rfl)⟩
  case loadRegs =>
    cases he; exact ⟨b, congrArg _ (withRange_setSt (congrArg State.next (setRegsFrom_setSt s b 0 _)))⟩
  all_goals cases he; exact ⟨b, rfl⟩

end Sys2Proof.Machine
end

