-- ==== Sys2Proof/Proofs/Timers.lean ====
section
/-!
Proofs about the TIMER agent (60_exceptions.md rules R222, R223): many ticks at once are one tick iterated.
-/
namespace Sys2Proof.Machine

theorem decrementIfPositive_drain (k : Nat) (t : Byte) : decrementIfPositive (drain k t) = drain (k + 1) t := by
  apply BitVec.eq_of_toNat_eq
  rw [decrementIfPositive_toNat, drain_toNat, drain_toNat, Nat.sub_sub]

theorem drain_zero (t : Byte) : drain 0 t = t := BitVec.eq_of_toNat_eq (drain_toNat 0 t)

theorem drain_eq_zero_iff (k : Nat) (t : Byte) : drain k t = 0#8 ↔ t.toNat ≤ k := by
  rw [← BitVec.toNat_inj, drain_toNat]
  exact Nat.sub_eq_zero_iff_le

/-- `timerTicks k` is `timerTick` `k` times. -/
theorem iterate_timerTick (k : Nat) (s : State) : timerTick^[k] s = timerTicks k s := by
  induction k with
  | zero => simp only [Function.iterate_zero_apply, timerTicks, drain_zero]
  | succ k ih =>
    rw [Function.iterate_succ_apply', ih]
    simp only [timerTick, timerTicks, decrementIfPositive_drain]

theorem betweenTicks_eq_iterate (s : State) :
    betweenTicks s = { timerTick^[timerTicksBefore s.turn] s with turn := s.turn + 1 } := by
  rw [iterate_timerTick]
  rfl

/-- Settles O7: the ticks of a turn are drained at once, which is the tick iterated. -/
theorem betweenTicksIteratesTimerTick : Obligations.BetweenTicksIteratesTimerTick := betweenTicks_eq_iterate

/-- Settles O14: a tick is a record update of the two timers. -/
theorem timerTickDecrements : Obligations.TimerTickDecrements := fun s =>
  ⟨decrementIfPositive_toNat s.dt, decrementIfPositive_toNat s.st, rfl, rfl, fun _ _ => rfl, rfl, ⟨rfl, fun _ => rfl⟩,
    rfl, rfl, ⟨rfl, rfl⟩⟩

/-- Settles O15: draining by `k` is subtraction of `k`, stopping at 0. -/
theorem timerReachesZeroAfterItsTicks : Obligations.TimerReachesZeroAfterItsTicks := fun s k => by
  rw [iterate_timerTick]
  exact ⟨drain_toNat k s.dt, drain_toNat k s.st, drain_eq_zero_iff k s.dt, drain_eq_zero_iff k s.st⟩

end Sys2Proof.Machine
end

