-- ==== Sys2Proof/Proofs/Step.lean ====
section
/-!
Proofs about one step (40_execution_loop.md rules R121 to R127): which of the cases of `step_cases` a state falls into, and
what each leaves.
-/
namespace Sys2Proof.Machine

/-! ### Which case a step is -/

theorem not_running_of_halted {s : State} {r : HaltReason} (h : s.runState = .halted r) : s.runState ≠ .running :=
  fun hrun => nomatch h.symm.trans hrun

theorem fetch_of_le {s : State} (h : s.pc.toNat ≤ 4094) :
    fetch s = .ok (wordOfBytes (Memory.read s.mem s.pc.toNat) (Memory.read s.mem (s.pc.toNat + 1))) := by
  rcases fetch_cases s with ⟨hpc, -⟩ | ⟨-, hf⟩
  · omega
  · exact hf

theorem fetch_of_ge {s : State} (h : 4095 ≤ s.pc.toNat) : fetch s = .error (.outOfBounds (max s.pc.toNat 4096)) := by
  rcases fetch_cases s with ⟨-, hf⟩ | ⟨hpc, -⟩
  · exact hf
  · omega

theorem pc_le_of_fetch_ok {s : State} {w : Word} (h : fetch s = .ok w) : s.pc.toNat ≤ 4094 := by
  rcases fetch_cases s with ⟨-, hf⟩ | ⟨hpc, -⟩
  · exact nomatch hf.symm.trans h
  · exact hpc

theorem step_of_halted {s : State} {r : HaltReason} (h : s.runState = .halted r) : step s = .next (betweenTicks s) := by
  rcases step_cases s with ⟨_, -, hs⟩ | ⟨hrun, -⟩ | ⟨hrun, -⟩ | ⟨_, ⟨hrun, -⟩, -⟩
  · exact hs
  all_goals exact absurd hrun (not_running_of_halted h)

theorem step_of_fetch_error {s : State} {r : HaltReason} (h : s.runState = .running) (hf : fetch s = .error r) :
    step s = .next (raise r (betweenTicks s)) := by
  rcases step_cases s with ⟨_, hr, -⟩ | ⟨-, r', hf', hs⟩ | ⟨-, _, _, hf', -⟩ | ⟨_, ⟨-, _, hf', -⟩, -⟩
  · exact absurd h (not_running_of_halted hr)
  · cases hf.symm.trans hf'; exact hs
  · cases hf.symm.trans hf'
  · cases hf.symm.trans hf'

theorem step_of_decode_error {s : State} {w : Word} {e : DecodeError} (h : s.runState = .running)
    (hf : fetch s = .ok w) (hd : decode w = .error e) : step s = .next (raise (decodeFailure e) (betweenTicks s)) := by
  rcases step_cases s with ⟨_, hr, -⟩ | ⟨-, _, hf', -⟩ | ⟨-, w', e', hf', hd', hs⟩ | ⟨_, ⟨-, w', hf', hd'⟩, -⟩
  · exact absurd h (not_running_of_halted hr)
  · cases hf.symm.trans hf'
  · cases hf.symm.trans hf'; cases hd.symm.trans hd'; exact hs
  · cases hf.symm.trans hf'; cases hd.symm.trans hd'

theorem step_of_aboutToRun {s : State} {i : Instr} (h : AboutToRun i s) :
    step s = checked (exec i (betweenTicks s)) := by
  obtain ⟨hrun, w, hf, hd⟩ := h
  rcases step_cases s with ⟨_, hr, -⟩ | ⟨-, _, hf', -⟩ | ⟨-, w', _, hf', hd', -⟩ | ⟨i', ⟨-, w', hf', hd'⟩, hs⟩
  · exact absurd hrun (not_running_of_halted hr)
  · cases hf.symm.trans hf'
  · cases hf.symm.trans hf'; cases hd.symm.trans hd'
  · cases hf.symm.trans hf'; cases hd.symm.trans hd'; exact hs

/-- The end-of-tick check in the form of R126. -/
theorem endOfTick_eq (t : State) :
    endOfTick t =
      if t.runState = .running ∧ 4096 ≤ t.pc.toNat then { t with runState := .halted (.outOfBounds t.pc.toNat) }
      else t := by
  rcases endOfTick_cases t with ⟨hrun, hpc, he⟩ | ⟨⟨r, hr⟩, he⟩ | ⟨-, hpc, he⟩ <;> rw [he]
  · rw [if_pos ⟨hrun, hpc⟩]; rfl
  · rw [if_neg fun h => not_running_of_halted hr h.1]
  · rw [if_neg fun h => by omega]

/-! ### The statements -/

/-- Settles O6: the fetched word decodes, so the step is the instruction and the check. -/
theorem stepRunsDecodedInstruction : Obligations.StepRunsDecodedInstruction := fun s t i hrun hpc hd he => by
  rw [step_of_aboutToRun ⟨hrun, _, fetch_of_le hpc, hd⟩, he, checked_next, endOfTick_eq]

/-- Settles O9: the step of a halted machine is the turn's TIMER ticks. -/
theorem haltedMachineOnlyCountsDown : Obligations.HaltedMachineOnlyCountsDown := fun s _ hr =>
  ⟨timerTicksBefore s.turn, betweenTicks s, step_of_halted hr, drain_toNat _ _, drain_toNat _ _, rfl, rfl, fun _ _ => rfl,
    rfl, ⟨rfl, fun _ => rfl⟩, rfl, rfl, rfl⟩

/-- Settles O10: the three ranges of `PC` that fetch tells apart. -/
theorem fetchReadsHighByteFirstOrHalts : Obligations.FetchReadsHighByteFirstOrHalts := by
  refine ⟨fun s hpc => ⟨_, fetch_of_le hpc, wordOfBytes_toNat _ _⟩, fun s hrun hpc => ?_, fun s hrun hpc => ?_⟩
  · have hf : fetch s = .error (.outOfBounds 4096) := by rw [fetch_of_ge hpc.ge, hpc]; rfl
    exact ⟨_, step_of_fetch_error hrun hf, raise_haltsWith _ _⟩
  · have hf : fetch s = .error (.outOfBounds s.pc.toNat) := by
      rw [fetch_of_ge (by omega), Nat.max_eq_left hpc]
    exact ⟨_, step_of_fetch_error hrun hf, raise_haltsWith _ _⟩

/-- A key instruction raises `OpcodeNotImplemented` with its own word. -/
theorem exec_of_isKeyInstr {i : Instr} (h : i.isKeyInstr = true) (s : State) :
    exec i s = .next (raise (.opcodeNotImplemented (encode i)) s) := by
  cases i
  case skp | sknp | ldVxK => rfl
  all_goals cases h

/-- No key instruction is in group 0, so the word it is decoded from is its canonical one. -/
theorem encode_eq_of_isKeyInstr {w : Word} {i : Instr} (hd : decode w = .ok i) (h : i.isKeyInstr = true) :
    encode i = w := by
  have hc := encode_eq_canonicalWord hd
  have hg : fieldGroup (encode i) ≠ 0x0#4 := by
    cases i
    case skp | sknp | ldVxK => simp [encode]
    all_goals cases h
  unfold canonicalWord at hc
  split at hc
  · next h0 => rw [hc, and_maskGroupKK, h0, fieldGroup_wordXKK] at hg; exact absurd rfl hg
  · exact hc

/-- Settles O11: an undecodable word is raised by the tick, a key word by its instruction, whose word it is. -/
theorem wordWithoutMeaningHalts : Obligations.WordWithoutMeaningHalts := fun s w hrun hpc hw => by
  have hf : fetch s = .ok w := by rw [hw, fetch_of_le hpc]
  refine ⟨fun e hd => ?_, fun i hd hi => ?_⟩
  · have hs := step_of_decode_error hrun hf hd
    rw [decode_error hd] at hs
    exact ⟨_, hs, raise_haltsWith _ _⟩
  · have hs := step_of_aboutToRun ⟨hrun, w, hf, hd⟩
    rw [exec_of_isKeyInstr hi, encode_eq_of_isKeyInstr hd hi] at hs
    exact ⟨_, hs, raise_haltsWith _ _⟩

/-- An instruction that halts a running machine leaves the state it found. -/
theorem haltsWith_of_effect {i : Instr} {s t : State} {r : HaltReason} (he : Effect i s t)
    (hs : s.runState = .running) (ht : t.runState = .halted r) : HaltsWith r s t := by
  cases he with
  | halt => cases ht; exact raise_haltsWith _ s
  | _ => exact nomatch hs.symm.trans ht

/-- Settles O12: of the four cases of a step only an instruction that committed can be halted by the end-of-tick check;
every other failure is a raise in the state before the tick. -/
theorem failuresArePrecise : Obligations.FailuresArePrecise := fun s t r hrun hstep ht => by
  rcases step_cases s with ⟨_, hr, -⟩ | ⟨-, _, -, hs⟩ | ⟨-, _, _, -, -, hs⟩ | ⟨i, hi, hs⟩
  · exact absurd hrun (not_running_of_halted hr)
  · cases hs.symm.trans hstep; cases ht; exact .inl (raise_haltsWith _ _)
  · cases hs.symm.trans hstep; cases ht; exact .inl (raise_haltsWith _ _)
  · obtain ⟨-, w, hf, hd⟩ := hi
    obtain ⟨u, hu⟩ := exists_exec_next i (betweenTicks s)
    rw [hu, checked_next] at hs
    cases hs.symm.trans hstep
    rcases endOfTick_cases u with ⟨hrunu, hpc, he⟩ | ⟨-, he⟩ | ⟨hrunu, -, he⟩ <;> rw [he] at ht ⊢
    · cases ht
      cases (fetch_of_le (pc_le_of_fetch_ok hf)).symm.trans hf
      exact .inr ⟨i, u, hd, hu, hrunu, hpc, rfl, raise_haltsWith _ _⟩
    · exact .inl (haltsWith_of_effect (effect_of_exec hu) hrun ht)
    · exact absurd hrunu (not_running_of_halted ht)

end Sys2Proof.Machine
end

