-- ==== Sys2Proof/Proofs/Invariant.lean ====
section
/-!
The invariants of R35: reset meets them and every step keeps them. `MachineInv (raise r t)` says of `t` all of them but the
bound on a running `PC`, which is the end-of-tick check's to establish; so an instruction is shown to leave a state that
meets them when halted.
-/
namespace Sys2Proof.Machine

/-! ### Reset -/

theorem reset_reg (r : Nibble) : State.reset.reg r = 0#8 := Vector.getElem_replicate _

theorem reset_stackSlot (k : Nibble) : State.reset.stackSlot k = 0#16 := Vector.getElem_replicate _

theorem length_font : font.length = 80 := by decide

theorem initialByte_of_lt {a : Nat} (h : a < 80) : some (Memory.initialByte a) = font[a]? := by
  rw [Memory.initialByte, List.getD_eq_getElem?_getD, List.getElem?_eq_getElem (length_font ▸ h), Option.getD_some]

theorem initialByte_of_ge {a : Nat} (h : 80 ≤ a) : Memory.initialByte a = 0#8 := by
  rw [Memory.initialByte, List.getD_eq_getElem?_getD, List.getElem?_eq_none (length_font.trans_le h), Option.getD_none]

/-- Settles O18: nothing is listed in memory, no pixel is lit, every slot is 0. -/
theorem resetMeetsInv : Obligations.ResetMeetsInv where
  memWf := rfl
  displayWf := by decide
  slotZero := reset_stackSlot 0#4
  slotBound := fun k _ _ => by rw [reset_stackSlot]; decide
  pcRunning := fun _ => by decide
  pcBound := by decide

/-- Settles O19: the fields of the reset state; unlisted memory reads as the font and zeros. -/
theorem resetValues : Obligations.ResetValues :=
  ⟨reset_reg, rfl, rfl, rfl, rfl, rfl, reset_stackSlot, fun _ => initialByte_of_lt, fun _ => initialByte_of_ge, rfl,
    fun _ _ => rfl⟩

/-! ### Where an instruction leaves `PC` -/

/-- A return address held on the stack is at most 4094. -/
theorem MachineInv.top_le {s : State} (h : MachineInv s) : (s.stackSlot s.sp).toNat ≤ 4094 := by
  by_cases hsp : s.sp = 0#4
  · rw [hsp, h.slotZero]; decide
  · have := sub_one_toNat hsp
    exact h.slotBound s.sp (by omega) le_rfl

/-- An instruction halts where it is, or leaves `PC` where the table of R125 says. -/
theorem pc_of_effect {i : Instr} {s t : State} (hinv : MachineInv s) (hpc : s.pc.toNat ≤ 4095) (he : Effect i s t) :
    (∃ r, t = raise r s) ∨ t.pc.toNat = pcAfter s i := by
  have hnext : (s.pc + 2#16).toNat = s.pc.toNat + 2 := add_two_toNat hpc
  have htop := hinv.top_le
  cases he with
  | halt => exact .inl ⟨_, rfl⟩
  | branch hw => exact .inr (hw hpc)
  | @call nnn => exact .inr (addrOperand_toNat nnn)
  | ret => exact .inr (add_two_toNat (by omega))
  | regs hi => exact .inr (hnext.trans hi.symm)
  | _ => exact .inr hnext

/-- Settles O25: an instruction that leaves the machine running has not raised. -/
theorem pcAfterInstruction : Obligations.PcAfterInstruction := fun i s t hinv hrun he ht => by
  rcases pc_of_effect hinv (hinv.pcRunning hrun) (effect_of_exec he) with ⟨r, rfl⟩ | hpc
  · cases ht
  · exact hpc

/-- The largest `PC` is JP V0's: 4095 + 255. -/
theorem pcAfter_le {i : Instr} {s : State} (hinv : MachineInv s) (hpc : s.pc.toNat ≤ 4094) : pcAfter s i ≤ 0x10FE := by
  have htop := hinv.top_le
  have hv0 := (s.reg 0#4).isLt
  cases i
  case jp nnn | call nnn => have := nnn.isLt; simp only [pcAfter]; omega
  case jpV0 nnn => have := nnn.isLt; simp only [pcAfter]; omega
  case seImm | sneImm | seReg | sneReg => simp only [pcAfter]; split <;> omega
  all_goals simp only [pcAfter]; omega

/-! ### Every invariant is kept -/

theorem MachineInv.raise {s : State} (h : MachineInv s) (r : HaltReason) : MachineInv (raise r s) :=
  { h with pcRunning := nofun }

theorem MachineInv.betweenTicks {s : State} (h : MachineInv s) : MachineInv (betweenTicks s) :=
  { h with }

/-- What a state that would meet the invariants when halted still owes: the bound on a running `PC`. -/
theorem machineInv_of_raise {s : State} {r : HaltReason} (h : MachineInv (raise r s))
    (hpc : s.runState = .running → s.pc.toNat ≤ 4095) : MachineInv s := { h with pcRunning := hpc }

/-- The end-of-tick check bounds a running `PC`. -/
theorem machineInv_endOfTick {s : State} (h : ∀ r, MachineInv (raise r s)) : MachineInv (endOfTick s) := by
  rcases endOfTick_cases s with ⟨-, -, he⟩ | ⟨⟨r, hr⟩, he⟩ | ⟨-, hpc, he⟩ <;> rw [he]
  · exact h _
  · exact machineInv_of_raise (h r) fun hrun => absurd hrun (not_running_of_halted hr)
  · exact machineInv_of_raise (h .stackOverflow) fun _ => hpc

theorem memWf_of_effect {i : Instr} {s t : State} (hinv : MachineInv s) (he : Effect i s t) :
    Memory.wf t.mem = true := by
  cases he with
  | ldB h => exact Memory.wf_writeRange hinv.memWf h
  | storeRegs h => exact Memory.wf_writeRange hinv.memWf (by rw [length_regsUpTo]; exact h)
  | _ => exact hinv.memWf

theorem displayWf_of_effect {i : Instr} {s t : State} (hinv : MachineInv s) (he : Effect i s t) :
    t.display.wf = true := by
  cases he with
  | cls => exact Display.wf_clear hinv.displayWf
  | drw => exact Display.wf_draw hinv.displayWf _ _ _
  | _ => exact hinv.displayWf

theorem slotZero_of_effect {i : Instr} {s t : State} (hinv : MachineInv s) (he : Effect i s t) :
    t.stackSlot 0#4 = 0#16 := by
  cases he with
  | call hsp =>
    have hne : 0#4 ≠ s.sp + 1#4 := fun h => by
      have hsum := add_one_toNat hsp
      rw [← h] at hsum
      cases hsum
    exact (afterCall_stackSlot_of_ne hne).trans hinv.slotZero
  | _ => exact hinv.slotZero

/-- CALL pushes its own address, which a fetch bounds by 4094; RET drops the newest slot. -/
theorem slotBound_of_effect {i : Instr} {s t : State} (hinv : MachineInv s) (hpc : s.pc.toNat ≤ 4094)
    (he : Effect i s t) (k : Nibble) (hk : 1 ≤ k.toNat) (hkt : k.toNat ≤ t.sp.toNat) :
    (t.stackSlot k).toNat ≤ 4094 := by
  cases he with
  | call hsp =>
    rw [afterCall_stackSlot]
    split
    · exact hpc
    · next hne =>
      have hsum := add_one_toNat hsp
      have hkt' : k.toNat ≤ (s.sp + 1#4).toNat := hkt
      have hne' : k.toNat ≠ (s.sp + 1#4).toNat := fun h => hne (BitVec.eq_of_toNat_eq h)
      exact hinv.slotBound k hk (by omega)
  | ret hsp =>
    have hdiff := sub_one_toNat hsp
    have hkt' : k.toNat ≤ (s.sp - 1#4).toNat := hkt
    exact hinv.slotBound k hk (by omega)
  | _ => exact hinv.slotBound k hk hkt

theorem pcBound_of_effect {i : Instr} {s t : State} (hinv : MachineInv s) (hpc : s.pc.toNat ≤ 4094)
    (he : Effect i s t) : t.pc.toNat ≤ 0x10FE := by
  rcases pc_of_effect hinv (by omega) he with ⟨r, rfl⟩ | hafter
  · exact hinv.pcBound
  · rw [hafter]; exact pcAfter_le hinv hpc

/-- What an instruction leaves meets the invariants, but for the bound on a running `PC`. -/
theorem machineInv_raise_of_effect {i : Instr} {s t : State} (hinv : MachineInv s) (hpc : s.pc.toNat ≤ 4094)
    (he : Effect i s t) (r : HaltReason) : MachineInv (raise r t) where
  memWf := memWf_of_effect (t := t) hinv he
  displayWf := displayWf_of_effect (t := t) hinv he
  slotZero := slotZero_of_effect (t := t) hinv he
  slotBound := slotBound_of_effect (t := t) hinv hpc he
  pcRunning := nofun
  pcBound := pcBound_of_effect (t := t) hinv hpc he

/-- Settles O17: the four cases of a step, of which only the instruction touches more than timers and `RunState`. -/
theorem stepKeepsInv : Obligations.StepKeepsInv := fun s t hinv hstep => by
  rcases step_cases s with ⟨_, -, hs⟩ | ⟨-, r, -, hs⟩ | ⟨-, _, e, -, -, hs⟩ | ⟨i, ⟨-, w, hf, -⟩, hs⟩
  · cases hs.symm.trans hstep; exact hinv.betweenTicks
  · cases hs.symm.trans hstep; exact hinv.betweenTicks.raise r
  · cases hs.symm.trans hstep; exact hinv.betweenTicks.raise (decodeFailure e)
  · obtain ⟨u, hu⟩ := exists_exec_next i (betweenTicks s)
    rw [hu, checked_next] at hs
    cases hs.symm.trans hstep
    exact machineInv_endOfTick
      (machineInv_raise_of_effect hinv.betweenTicks (pc_le_of_fetch_ok hf) (effect_of_exec hu))

end Sys2Proof.Machine
end

