-- ==== Sys2Proof/Proofs/Calls.lean ====
section
/-!
Proofs about CALL and RET (41_control_flow.md rules R141, R142): a push above the newest slot and its undoing.
-/
namespace Sys2Proof.Machine

/-- Settles O27: with room the next state is `afterCall`, without it a raise. -/
theorem callPushesItsOwnAddress : Obligations.CallPushesItsOwnAddress := fun nnn s =>
  ⟨fun hsp => ⟨_, exec_call_of_room nnn hsp, addrOperand_toNat nnn, add_one_toNat hsp, afterCall_stackSlot_sp nnn s,
      fun _ => afterCall_stackSlot_of_ne, fun _ _ => rfl, rfl, ⟨rfl, rfl⟩, fun _ => rfl, rfl, rfl, ⟨rfl, rfl⟩⟩,
    fun hsp => ⟨_, exec_call_of_full nnn hsp, raise_haltsWith _ s⟩⟩

/-- Settles O28: with a held address the next state writes `PC` and `SP` alone, without one it is a raise. -/
theorem retReturnsPastTheCall : Obligations.RetReturnsPastTheCall := fun s =>
  ⟨fun hsp => ⟨_, exec_ret_of_held hsp, rfl, sub_one_toNat hsp, fun _ => rfl, fun _ _ => rfl, rfl, ⟨rfl, rfl⟩,
      fun _ => rfl, rfl, rfl, ⟨rfl, rfl⟩⟩,
    fun hsp => ⟨_, exec_ret_of_empty hsp, raise_haltsWith _ s⟩⟩

/-- Settles O29: RET finds the address that CALL pushed, and takes `SP` back. -/
theorem callThenRetComesBack : Obligations.CallThenRetComesBack := fun nnn s hsp hpc => by
  have hheld : (afterCall nnn s).sp ≠ 0#4 := fun h => by
    have hsum := add_one_toNat hsp
    rw [← afterCall_sp nnn, h] at hsum
    cases hsum
  refine ⟨_, _, exec_call_of_room nnn hsp, exec_ret_of_held hheld, ?_, ?_, fun r _ => ?_, fun a => ?_⟩
  · rw [State.setSp_pc, State.setPc_pc, afterCall_stackSlot_sp, add_two_toNat (by omega)]
  · rw [State.setSp_sp, afterCall_sp, BitVec.add_sub_cancel]
  · rw [State.setSp_reg, State.setPc_reg, afterCall_reg]
  · rw [State.setSp_mem, State.setPc_mem, afterCall_mem]

end Sys2Proof.Machine
end

