-- ==== Sys2Proof/Proofs/Alu.lean ====
section
/-!
Proofs about the instructions that compute a register or `I` (42_load_add_immediate.md, 43_alu.md, R193, R194). An
instruction with a flag writes `VF` first and reads its operands again for the result, so its lemma asks what the two
operands are after that write.
-/
namespace Sys2Proof.Machine

/-! ### Immediate add and random -/

theorem exec_addImm (x : Nibble) (kk : Byte) (s : State) :
    exec (.addImm x kk) s = .next (s.setReg x (s.reg x + kk)).next := rfl

/-- Settles O33: the byte sum is the sum of the numbers mod 256. -/
theorem addImmediateWraps : Obligations.AddImmediateWraps := fun x kk s => by
  obtain ⟨t, he, hsum, hframe⟩ := exec_setReg_next (exec_addImm x kk s)
  exact ⟨t, he, by rw [hsum, BitVec.toNat_add], hframe⟩

theorem exec_rnd (x : Nibble) (kk : Byte) (s : State) :
    exec (.rnd x kk) s = .next (s.countDraw.setReg x (Config.randByte s.draws &&& kk)).next := rfl

theorem and_and_not (a b : Byte) : a &&& b &&& ~~~b = 0#8 := by
  rw [BitVec.and_assoc, BitVec.and_not_self]
  exact BitVec.and_zero

theorem and_toNat_le (a b : Byte) : (a &&& b).toNat ≤ b.toNat := by
  rw [BitVec.toNat_and]
  exact Nat.and_le_right

/-- Settles O35: the mask clears every bit it lacks, whatever the draw. -/
theorem randomIsMasked : Obligations.RandomIsMasked := fun x kk s => by
  have hreg := State.setReg_reg_same s.countDraw x (Config.randByte s.draws &&& kk)
  refine ⟨_, exec_rnd x kk s, hreg, ?_, ?_, rfl, rfl, rfl, fun r hr => ?_, rfl, ⟨rfl, rfl⟩, ⟨rfl, fun _ => rfl⟩,
    fun _ => rfl, rfl, rfl⟩
  · rw [State.next_reg, hreg, and_and_not]
  · rw [State.next_reg, hreg]; exact and_toNat_le _ kk
  · exact setReg_reg_of_ne s.countDraw _ (List.ne_of_not_mem_cons hr)

/-! ### Copy and logic -/

theorem exec_ldReg (x y : Nibble) (s : State) : exec (.ldReg x y) s = .next (s.setReg x (s.reg y)).next := rfl

theorem exec_orReg (x y : Nibble) (s : State) :
    exec (.orReg x y) s = .next (s.setReg x (s.reg x ||| s.reg y)).next := rfl

theorem exec_andReg (x y : Nibble) (s : State) :
    exec (.andReg x y) s = .next (s.setReg x (s.reg x &&& s.reg y)).next := rfl

theorem exec_xorReg (x y : Nibble) (s : State) :
    exec (.xorReg x y) s = .next (s.setReg x (s.reg x ^^^ s.reg y)).next := rfl

/-- Settles O36: each is one register write, of the bitwise result. -/
theorem copyAndLogicResults : Obligations.CopyAndLogicResults := fun x y s => by
  obtain ⟨t, het, hor, hframet⟩ := exec_setReg_next (exec_orReg x y s)
  obtain ⟨u, heu, hand, hframeu⟩ := exec_setReg_next (exec_andReg x y s)
  obtain ⟨v, hev, hxor, hframev⟩ := exec_setReg_next (exec_xorReg x y s)
  exact ⟨exec_setReg_next (exec_ldReg x y s),
    ⟨t, het, fun k => by rw [hor, BitVec.getLsbD_or], hframet⟩,
    ⟨u, heu, fun k => by rw [hand, BitVec.getLsbD_and], hframeu⟩,
    ⟨v, hev, fun k => by rw [hxor, BitVec.getLsbD_xor], hframev⟩⟩

/-! ### Flags and results as numbers -/

theorem greaterFlag_eq (a b : Byte) : greaterFlag a b = if b.toNat < a.toNat then 1#8 else 0#8 := by
  simp [greaterFlag, flagValue]

theorem greaterFlag_toNat (a b : Byte) : (greaterFlag a b).toNat = if b.toNat < a.toNat then 1 else 0 := by
  rw [greaterFlag_eq]
  split <;> rfl

theorem lowBitFlag_toNat (a : Byte) : (lowBitFlag a).toNat = a.toNat % 2 := by
  rw [lowBitFlag, BitVec.toNat_and]
  exact Nat.and_one_is_mod _

theorem highBitFlag_toNat (a : Byte) : (highBitFlag a).toNat = a.toNat / 128 := by
  have ha := a.isLt
  rw [highBitFlag, BitVec.toNat_and, BitVec.toNat_ushiftRight, Nat.shiftRight_eq_div_pow]
  exact (Nat.and_one_is_mod _).trans (Nat.mod_eq_of_lt (by omega))

theorem sub_toNat (a b : Byte) : (a - b).toNat = (a.toNat + 256 - b.toNat) % 256 := by
  have hb := b.isLt
  rw [BitVec.toNat_sub]
  congr 1
  omega

theorem ushiftRight_one_toNat (a : Byte) : (a >>> 1).toNat = a.toNat / 2 := by
  rw [BitVec.toNat_ushiftRight, Nat.shiftRight_eq_div_pow]

theorem shiftLeft_one_toNat (a : Byte) : (a <<< 1).toNat = a.toNat * 2 % 256 := by
  rw [BitVec.toNat_shiftLeft, Nat.shiftLeft_eq]

/-! ### The shape of an instruction with a flag -/

theorem OnlyRegs.mono {dest dest' : List Nibble} {s t : State} (h : OnlyRegs dest s t) (hsub : dest ⊆ dest') :
    OnlyRegs dest' s t := by
  obtain ⟨hregs, hrest⟩ := h
  exact ⟨fun r hr => hregs r fun hm => hr (hsub hm), hrest⟩

/-- What any instruction does that writes a flag and then computes from its operands `a` and `b`, read after the flag. -/
theorem exec_aluFlagged {i : Instr} {s : State} {x y : Nibble} {flag result : Byte → Byte → Byte} {a b : Byte}
    (he : exec i s = .next (aluFlagged flag result x y s))
    (ha : (s.setReg vf (flag (s.reg x) (s.reg y))).reg x = a)
    (hb : (s.setReg vf (flag (s.reg x) (s.reg y))).reg y = b) :
    ∃ t, exec i s = .next t ∧ t.reg x = result a b ∧ (x ≠ vf → t.reg vf = flag (s.reg x) (s.reg y)) ∧
      t.pc = s.pc + 2#16 ∧ OnlyRegs [x, vf] s t := by
  subst ha hb
  exact exec_setFlag_setReg_next he

/-- The same where `V[x]` is `VF` itself: the flag is the operand, and the result stays. -/
theorem exec_aluFlagged_vf {i : Instr} {s : State} {y : Nibble} {flag result : Byte → Byte → Byte} {b : Byte}
    (he : exec i s = .next (aluFlagged flag result vf y s))
    (hb : (s.setReg vf (flag (s.reg vf) (s.reg y))).reg y = b) :
    ∃ t, exec i s = .next t ∧ t.reg vf = result (flag (s.reg vf) (s.reg y)) b ∧ t.pc = s.pc + 2#16 ∧
      OnlyRegs [vf] s t := by
  obtain ⟨t, het, hresult, -, hpc, hframe⟩ := exec_aluFlagged he (State.setReg_reg_same s vf _) hb
  exact ⟨t, het, hresult, hpc, hframe.mono (by simp)⟩

theorem exec_subReg (x y : Nibble) (s : State) :
    exec (.subReg x y) s = .next (aluFlagged greaterFlag (fun a b => a - b) x y s) := rfl

theorem exec_subnReg (x y : Nibble) (s : State) :
    exec (.subnReg x y) s = .next (aluFlagged (fun a b => greaterFlag b a) (fun a b => b - a) x y s) := rfl

theorem exec_shr (x y : Nibble) (s : State) :
    exec (.shr x y) s = .next (aluFlagged (fun a _ => lowBitFlag a) (fun a _ => a >>> 1) x y s) := rfl

theorem exec_shl (x y : Nibble) (s : State) :
    exec (.shl x y) s = .next (aluFlagged (fun a _ => highBitFlag a) (fun a _ => a <<< 1) x y s) := rfl

/-! ### Operands that are not `VF` -/

/-- Settles O38: neither operand is touched by the flag. -/
theorem subtractSetsGreaterFlag : Obligations.SubtractSetsGreaterFlag := fun x y s hx hy => by
  obtain ⟨t, he, hdiff, hflag, hpc, hframe⟩ :=
    exec_aluFlagged (exec_subReg x y s) (setReg_reg_of_ne s _ hx) (setReg_reg_of_ne s _ hy)
  exact ⟨t, he, by rw [hdiff, sub_toNat], by rw [hflag hx, greaterFlag_eq], hpc, hframe⟩

/-- Settles O39: neither operand is touched by the flag. -/
theorem reverseSubtractSetsGreaterFlag : Obligations.ReverseSubtractSetsGreaterFlag := fun x y s hx hy => by
  obtain ⟨t, he, hdiff, hflag, hpc, hframe⟩ :=
    exec_aluFlagged (exec_subnReg x y s) (setReg_reg_of_ne s _ hx) (setReg_reg_of_ne s _ hy)
  exact ⟨t, he, by rw [hdiff, sub_toNat], by rw [hflag hx, greaterFlag_eq], hpc, hframe⟩

/-- Settles O40: `V[y]` may be the flag just written, since the result does not look at it. -/
theorem shiftsMoveOneBitIntoVf : Obligations.ShiftsMoveOneBitIntoVf := fun x y s hx => by
  obtain ⟨t, het, hhalf, hlow, hpct, hframet⟩ := exec_aluFlagged (exec_shr x y s) (setReg_reg_of_ne s _ hx) rfl
  obtain ⟨u, heu, hdouble, hhigh, hpcu, hframeu⟩ := exec_aluFlagged (exec_shl x y s) (setReg_reg_of_ne s _ hx) rfl
  exact ⟨⟨t, het, by rw [hhalf, ushiftRight_one_toNat], by rw [hlow hx, lowBitFlag_toNat], hpct, hframet⟩,
    ⟨u, heu, by rw [hdouble, shiftLeft_one_toNat], by rw [hhigh hx, highBitFlag_toNat], hpcu, hframeu⟩⟩

/-! ### `VF` as an operand -/

/-- A flag shifted right leaves nothing. -/
theorem lowBitFlag_ushiftRight (a : Byte) : lowBitFlag a >>> 1 = 0#8 := by
  apply BitVec.eq_of_toNat_eq
  rw [ushiftRight_one_toNat, lowBitFlag_toNat]
  exact Nat.div_eq_of_lt (Nat.mod_lt _ (by decide))

/-- A flag shifted left is 2 where it was set. -/
theorem highBitFlag_shiftLeft (a : Byte) : highBitFlag a <<< 1 = if 0x80 ≤ a.toNat then 2#8 else 0#8 := by
  have ha := a.isLt
  apply BitVec.eq_of_toNat_eq
  rw [shiftLeft_one_toNat, highBitFlag_toNat]
  split
  · rw [show a.toNat / 128 = 1 by omega]; rfl
  · rw [show a.toNat / 128 = 0 by omega]; rfl

/-- Settles O41: the eight rows, by which operands the flag has replaced when the result is computed. -/
theorem vfAsOperandFollowsTable : Obligations.VfAsOperandFollowsTable := by
  refine ⟨fun y s hy => ?_, fun x s hx => ?_, fun s => ?_, fun y s => ?_, fun y s hy => ?_, fun x s hx => ?_,
    fun s => ?_, fun y s => ?_⟩
  · obtain ⟨t, he, hresult, hframe⟩ := exec_aluFlagged_vf (exec_subReg vf y s) (setReg_reg_of_ne s _ hy)
    exact ⟨t, he, by rw [hresult, sub_toNat, greaterFlag_toNat], hframe⟩
  · obtain ⟨t, he, hresult, hflag, hframe⟩ :=
      exec_aluFlagged (exec_subReg x vf s) (setReg_reg_of_ne s _ hx) (State.setReg_reg_same s vf _)
    exact ⟨t, he, by rw [hflag hx, greaterFlag_toNat], by rw [hresult, sub_toNat, hflag hx], hframe⟩
  · obtain ⟨t, he, hresult, hframe⟩ := exec_aluFlagged_vf (exec_subReg vf vf s) (State.setReg_reg_same s vf _)
    exact ⟨t, he, hresult.trans (BitVec.sub_self _), hframe⟩
  · obtain ⟨t, he, hresult, hframe⟩ := exec_aluFlagged_vf (exec_shr vf y s) rfl
    exact ⟨t, he, hresult.trans (lowBitFlag_ushiftRight _), hframe⟩
  · obtain ⟨t, he, hresult, hframe⟩ := exec_aluFlagged_vf (exec_subnReg vf y s) (setReg_reg_of_ne s _ hy)
    exact ⟨t, he, by rw [hresult, sub_toNat, greaterFlag_toNat], hframe⟩
  · obtain ⟨t, he, hresult, hflag, hframe⟩ :=
      exec_aluFlagged (exec_subnReg x vf s) (setReg_reg_of_ne s _ hx) (State.setReg_reg_same s vf _)
    exact ⟨t, he, by rw [hflag hx, greaterFlag_toNat], by rw [hresult, sub_toNat, hflag hx], hframe⟩
  · obtain ⟨t, he, hresult, hframe⟩ := exec_aluFlagged_vf (exec_subnReg vf vf s) (State.setReg_reg_same s vf _)
    exact ⟨t, he, hresult.trans (BitVec.sub_self _), hframe⟩
  · obtain ⟨t, he, hresult, hframe⟩ := exec_aluFlagged_vf (exec_shl vf y s) rfl
    exact ⟨t, he, hresult.trans (highBitFlag_shiftLeft _), hframe⟩

/-! ### The index register -/

theorem exec_addI (x : Nibble) (s : State) :
    exec (.addI x) s = .next (s.setI (s.i + wideOperand (s.reg x))).next := rfl

theorem exec_ldF (x : Nibble) (s : State) : exec (.ldF x) s = .next (s.setI (glyphAddr (s.reg x))).next := rfl

/-- Settles O48: the 16-bit sum is the sum of the numbers mod 65536, and five times a byte fits 16 bits. -/
theorem indexArithmetic : Obligations.IndexArithmetic := fun x s =>
  ⟨exec_setI_next (exec_addI x s) (by rw [BitVec.toNat_add, wideOperand_toNat]),
    exec_setI_next (exec_ldF x s) (glyphAddr_toNat (s.reg x))⟩

end Sys2Proof.Machine
end

