-- ==== Sys2Proof/Proofs/MemoryForm.lean ====
section
/-!
Proofs about the canonical form of memory (20_memory.md rule R71; log entry 6): it is unique, so that equations between
memories are equations between what they read.
-/
namespace Sys2Proof.Machine.Memory

theorem le_of_mem_wfFrom {m : List Host.Cell} {lo : Nat} {c : Host.Cell} (h : wfFrom lo m = true) (hc : c ∈ m) :
    lo ≤ c.1 := by
  induction m generalizing lo with
  | nil => cases hc
  | cons d rest ih =>
    obtain ⟨hlo, -, -, hrest⟩ := wfFrom_cons.1 h
    rcases List.mem_cons.1 hc with rfl | hc
    · exact hlo
    · have := ih hrest hc
      omega

theorem pairwise_of_wfFrom {m : List Host.Cell} {lo : Nat} (h : wfFrom lo m = true) :
    m.Pairwise fun c d => c.1 < d.1 := by
  induction m generalizing lo with
  | nil => exact .nil
  | cons c rest ih =>
    obtain ⟨-, -, -, hrest⟩ := wfFrom_cons.1 h
    exact .cons (fun d hd => le_of_mem_wfFrom hrest hd) (ih hrest)

/-- A canonical memory lists exactly the bytes that read otherwise than reset left them. -/
theorem mem_iff_read {m : List Host.Cell} {lo a : Nat} {b : Byte} (h : wfFrom lo m = true) :
    (a, b) ∈ m ↔ read m a = b ∧ b ≠ initialByte a := by
  induction m generalizing lo with
  | nil =>
    rw [read]
    exact ⟨nofun, fun ⟨hread, hne⟩ => absurd hread.symm hne⟩
  | cons c rest ih =>
    obtain ⟨k, c⟩ := c
    obtain ⟨-, -, hc, hrest⟩ := wfFrom_cons.1 h
    rw [List.mem_cons, ih hrest, read, Prod.mk.injEq]
    by_cases hk : k = a
    · subst hk
      rw [if_pos rfl, read_below hrest (Nat.lt_succ_self k)]
      constructor
      · rintro (⟨-, rfl⟩ | ⟨hread, hne⟩)
        · exact ⟨rfl, hc⟩
        · exact absurd hread.symm hne
      · rintro ⟨rfl, -⟩
        exact .inl ⟨rfl, rfl⟩
    · rw [if_neg hk, or_iff_right fun hh => hk hh.1.symm]

/-- Two canonical memories that read alike list the same bytes, both with rising addresses. -/
theorem eq_of_read_eq {m m' : List Host.Cell} (h : wf m = true) (h' : wf m' = true)
    (hread : ∀ a, read m a = read m' a) : m = m' := by
  have hirrefl : Std.Irrefl fun c d : Host.Cell => c.1 < d.1 := ⟨fun c => Nat.lt_irrefl c.1⟩
  exact (pairwise_of_wfFrom h).eq_of_mem_iff (pairwise_of_wfFrom h') fun ⟨a, b⟩ => by
    rw [mem_iff_read h, mem_iff_read h', hread]

/-- What a write reads back as, at any address. -/
theorem read_write {m : List Host.Cell} (h : wf m = true) (a a' : Nat) (b : Byte) :
    read (write m a b) a' = if a' = a then b else read m a' := by
  split
  · next he => rw [he, read_write_same a b h]
  · next hne => rw [read_write_ne m b hne]

/-- Settles O55: what a canonical memory reads decides what it lists. -/
theorem canonicalMemoriesReadingAlikeAreEqual : Obligations.CanonicalMemoriesReadingAlikeAreEqual :=
  fun _ _ => eq_of_read_eq

/-- Settles O56: both sides are canonical and read alike. -/
theorem memoryWritesRepeatAndCommute : Obligations.MemoryWritesRepeatAndCommute := fun m a a' b b' h ha ha' hne => by
  have hw := wf_write b h ha
  have hw' := wf_write b' h ha'
  constructor
  · refine eq_of_read_eq (wf_write b hw ha) hw fun c => ?_
    rw [read_write hw, read_write h]
    split <;> rfl
  · refine eq_of_read_eq (wf_write b' hw ha') (wf_write b hw' ha) fun c => ?_
    rw [read_write hw, read_write h, read_write hw', read_write h]
    by_cases hc : c = a
    · rw [if_neg (hc ▸ hne), if_pos hc, if_pos hc]
    · rw [if_neg hc, if_neg hc]

end Sys2Proof.Machine.Memory
end

