-- ==== Sys2Proof/Proofs/MemoryTransfer.lean ====
section
/-!
Proofs about the instructions that work on a range at `I` (20_memory.md rule R79, 45_misc_timer_memory.md rules R195 to
R197), and about the host's load (R63, R241 to R244).
-/
namespace Sys2Proof.Machine

/-! ### Ranges -/

theorem exec_of_range_inside {i : Instr} {s : State} {count : Nat} {go : State → State}
    (he : exec i s = .next (withRange count s go)) (h : s.i.toNat + count ≤ 4096) : exec i s = .next (go s) := by
  rcases withRange_cases count s go with ⟨-, hr⟩ | ⟨hout, -⟩
  · rw [he, hr]
  · omega

theorem exec_of_range_outside {i : Instr} {s : State} {count : Nat} {go : State → State}
    (he : exec i s = .next (withRange count s go)) (h : 4096 < s.i.toNat + count) :
    ∃ t, exec i s = .next t ∧ HaltsWith (.outOfBounds (max s.i.toNat 4096)) s t := by
  rcases withRange_cases count s go with ⟨hin, -⟩ | ⟨-, hr⟩
  · omega
  · exact ⟨_, he.trans (congrArg _ hr), raise_haltsWith _ s⟩

theorem exec_drw (x y n : Nibble) (s : State) :
    exec (.drw x y n) s = .next (withRange n.toNat s (drawSprite x y n)) := rfl

theorem exec_ldB (x : Nibble) (s : State) :
    exec (.ldB x) s = .next (withRange 3 s (storeAtIndex (decimalDigits (s.reg x)))) := rfl

theorem exec_storeRegs (x : Nibble) (s : State) :
    exec (.storeRegs x) s = .next (withRange (moveCount x) s (storeAtIndex (s.regsUpTo x))) := rfl

theorem exec_loadRegs (x : Nibble) (s : State) :
    exec (.loadRegs x) s = .next (withRange (moveCount x) s (loadAtIndex x)) := rfl

/-- Settles O46: each of the four checks its range first, and raises. -/
theorem rangeOutsideMemoryHalts : Obligations.RangeOutsideMemoryHalts := fun x y n s =>
  ⟨exec_of_range_outside (exec_drw x y n s), fun h => exec_of_range_outside (exec_ldB x s) (by omega),
    fun h => ⟨exec_of_range_outside (exec_storeRegs x s) (by rw [moveCount]; omega),
      exec_of_range_outside (exec_loadRegs x s) (by rw [moveCount]; omega)⟩⟩

/-! ### Stores -/

theorem read_storeAtIndex_inside {s : State} {bytes : List Byte} {k : Nat} (h : Memory.wf s.mem = true)
    (hin : s.i.toNat + bytes.length ≤ 4096) (hk : k < bytes.length) :
    Memory.read (storeAtIndex bytes s).mem (s.i.toNat + k) = bytes[k] := Memory.read_writeRange_inside h hin hk

theorem read_storeAtIndex_outside {s : State} {bytes : List Byte} {a : Nat}
    (h : a < s.i.toNat ∨ s.i.toNat + bytes.length ≤ a) :
    Memory.read (storeAtIndex bytes s).mem a = Memory.read s.mem a := Memory.read_writeRange_outside s.mem h

/-- A store changes memory and `PC` alone. -/
theorem storeAtIndex_frame (bytes : List Byte) (s : State) :
    (storeAtIndex bytes s).pc = s.pc + 2#16 ∧ KeepsRegsBut [] s (storeAtIndex bytes s) ∧
      (storeAtIndex bytes s).i = s.i ∧ KeepsTimers s (storeAtIndex bytes s) ∧ KeepsStack s (storeAtIndex bytes s) ∧
      (storeAtIndex bytes s).display = s.display ∧ (storeAtIndex bytes s).runState = s.runState ∧
      KeepsCounters s (storeAtIndex bytes s) :=
  ⟨rfl, fun _ _ => rfl, rfl, ⟨rfl, rfl⟩, ⟨rfl, fun _ => rfl⟩, rfl, rfl, ⟨rfl, rfl⟩⟩

theorem byte_ofNat_toNat {n : Nat} (h : n < 256) : (BitVec.ofNat 8 n).toNat = n := by
  rw [BitVec.toNat_ofNat, Nat.mod_eq_of_lt h]

/-- Settles O49: the three digits are bytes, stored in turn from `I`. -/
theorem decimalDigitsStored : Obligations.DecimalDigitsStored := fun x s hwf hin => by
  have hlt := (s.reg x).isLt
  have hlen := length_decimalDigits (s.reg x)
  have hread := fun k hk => read_storeAtIndex_inside (k := k) (bytes := decimalDigits (s.reg x)) hwf
    (by rw [hlen]; omega) (hlen.symm ▸ hk)
  refine ⟨_, exec_of_range_inside (exec_ldB x s) (by omega), ?_, ?_, ?_, fun a ha => ?_, storeAtIndex_frame _ s⟩
  · exact (congrArg BitVec.toNat (hread 0 (by decide))).trans (byte_ofNat_toNat (by omega))
  · exact (congrArg BitVec.toNat (hread 1 (by decide))).trans (byte_ofNat_toNat (by omega))
  · exact (congrArg BitVec.toNat (hread 2 (by decide))).trans (byte_ofNat_toNat (by omega))
  · exact read_storeAtIndex_outside (by rw [hlen]; omega)

theorem exec_storeRegs_inside {x : Nibble} {s : State} (h : s.i.toNat + x.toNat ≤ 4095) :
    exec (.storeRegs x) s = .next (storeAtIndex (s.regsUpTo x) s) :=
  exec_of_range_inside (exec_storeRegs x s) (by rw [moveCount]; omega)

/-- Byte `I + k` holds `V[k]` after Fx55. -/
theorem read_stored_reg {x k : Nibble} {s : State} (hwf : Memory.wf s.mem = true) (hin : s.i.toNat + x.toNat ≤ 4095)
    (hk : k.toNat ≤ x.toNat) : Memory.read (storeAtIndex (s.regsUpTo x) s).mem (s.i.toNat + k.toNat) = s.reg k := by
  have hlen := length_regsUpTo s x
  rw [read_storeAtIndex_inside hwf (by omega) (by omega), getElem_regsUpTo, BitVec.ofNat_toNat, BitVec.setWidth_eq]

/-- Settles O50: the list stored is `V[0]` to `V[x]`. -/
theorem registersStored : Obligations.RegistersStored := fun x s hwf hin =>
  ⟨_, exec_storeRegs_inside hin, fun _ => read_stored_reg hwf hin,
    fun a ha => read_storeAtIndex_outside (by rw [length_regsUpTo]; omega), storeAtIndex_frame _ s⟩

/-! ### Loads -/

theorem exec_loadRegs_inside {x : Nibble} {s : State} (h : s.i.toNat + x.toNat ≤ 4095) :
    exec (.loadRegs x) s = .next (loadAtIndex x s) :=
  exec_of_range_inside (exec_loadRegs x s) (by rw [moveCount]; omega)

/-- A load changes the registers and `PC` alone. -/
theorem loadAtIndex_frame (x : Nibble) (s : State) :
    (loadAtIndex x s).pc = s.pc + 2#16 ∧ (loadAtIndex x s).i = s.i ∧ KeepsTimers s (loadAtIndex x s) ∧
      KeepsStack s (loadAtIndex x s) ∧ KeepsMem s (loadAtIndex x s) ∧ (loadAtIndex x s).display = s.display ∧
      (loadAtIndex x s).runState = s.runState ∧ KeepsCounters s (loadAtIndex x s) := by
  rw [loadAtIndex, setRegsFrom_eq]
  exact ⟨rfl, rfl, ⟨rfl, rfl⟩, ⟨rfl, fun _ => rfl⟩, fun _ => rfl, rfl, rfl, ⟨rfl, rfl⟩⟩

/-- Settles O51: register `k` receives the k-th byte of the range. -/
theorem registersLoaded : Obligations.RegistersLoaded := fun x s hin =>
  ⟨_, exec_loadRegs_inside hin, fun _ => loadAtIndex_reg_of_le s, fun _ => loadAtIndex_reg_of_lt s,
    loadAtIndex_frame x s⟩

/-- Settles O52: the load reads the bytes the store wrote, at the same `I`. -/
theorem storeThenLoadRestoresRegisters : Obligations.StoreThenLoadRestoresRegisters := fun x s u hwf hin => by
  refine ⟨_, exec_storeRegs_inside hin, fun hmem hi => ?_⟩
  have hui : u.i = s.i := hi
  refine ⟨_, exec_loadRegs_inside (hui ▸ hin), fun k hk => ?_⟩
  rw [loadAtIndex_reg_of_le u hk, hmem, hui, read_stored_reg hwf hin hk]

/-- Settles O53: the next fetch reads the two bytes stored at the next instruction's address. -/
theorem storedBytesAreFetchedNext : Obligations.StoredBytesAreFetchedNext := fun x k s hwf hin hk hpc => by
  have hx := x.isLt
  have hk1 : (k + 1#4).toNat = k.toNat + 1 := add_one_toNat fun h => by
    rw [h, show (15#4 : Nibble).toNat = 15 from rfl] at hk
    omega
  have hpc' : (storeAtIndex (s.regsUpTo x) s).pc.toNat = s.i.toNat + k.toNat := hpc
  refine ⟨_, exec_storeRegs_inside hin, ?_⟩
  rw [fetch_betweenTicks, fetch_of_le (by omega), hpc', read_stored_reg hwf hin (by omega), Nat.add_assoc, ← hk1,
    read_stored_reg hwf hin (by omega)]

/-! ### The host -/

theorem load_of_fits {origin : Nat} {image : List Byte} (s : State) (h : origin + image.length ≤ 4096) :
    load origin image s = .next (s.setMem (Memory.writeRange s.mem origin image)) := if_pos h

theorem load_of_not_fits {origin : Nat} {image : List Byte} (s : State) (h : 4096 < origin + image.length) :
    load origin image s = .fault (.loadOutOfBounds (max origin 4096)) := if_neg (Nat.not_le.2 h)

/-- Settles O57: the load is a range store, or the fault. -/
theorem hostLoadWritesImageOrFails : Obligations.HostLoadWritesImageOrFails := fun origin image s hwf =>
  ⟨fun h => ⟨_, load_of_fits s h,
      fun k b hb => by
        obtain ⟨hk, hkb⟩ := List.getElem?_eq_some_iff.1 hb
        exact (Memory.read_writeRange_inside hwf h hk).trans hkb,
      fun a ha => Memory.read_writeRange_outside s.mem ha, rfl⟩,
    load_of_not_fits s⟩

/-- A load from the reset machine starts it with what the load answers. -/
theorem hostAct_load_of_next {image : List Byte} {s t : State} (h : load 0x200 image s = .next t) :
    hostAct (.load image) (.created s) = some (.started t) := by
  have h' : load Config.programOrigin image s = .next t := h
  simp only [hostAct, h']

theorem hostAct_load_of_fault {image : List Byte} {s : State} {a : Nat}
    (h : load 0x200 image s = .fault (.loadOutOfBounds a)) :
    hostAct (.load image) (.created s) = some (.loadFailed a) := by
  have h' : load Config.programOrigin image s = .fault (.loadOutOfBounds a) := h
  simp only [hostAct, h']

theorem turn_of_not_started {l : Lifecycle} (h : ∀ s, l ≠ .started s) : l.turn = l := by
  cases l with
  | started s => exact absurd rfl (h s)
  | _ => rfl

theorem turn_started {s t : State} (h : step s = .next t) : (Lifecycle.started s).turn = .started t := by
  simp only [Lifecycle.turn, h]

/-- Settles O58: the load's two answers, and the actions and turns by the stage of the lifecycle. -/
theorem hostActsOnlyAtStartAndEnd : Obligations.HostActsOnlyAtStartAndEnd := by
  refine ⟨fun image h => ?_, fun image h => ?_, fun a s ha => ?_, fun _ => rfl, fun _ => turn_of_not_started,
    fun _ _ => turn_started⟩
  · have hload := load_of_fits (origin := 0x200) (image := image) State.reset (by omega)
    exact ⟨_, hload, hostAct_load_of_next hload⟩
  · exact hostAct_load_of_fault (load_of_not_fits State.reset (by omega))
  · cases a with
    | teardown => exact absurd rfl ha
    | _ => rfl

end Sys2Proof.Machine
end

