-- ==== Sys2Proof/Proofs/Drawing.lean ====
section
/-!
Proofs about DRW (44_display.md rules R181, R184, R185): the pixels it plots are those `SpriteCovers` names, and a canonical
display is known by its pixels.
-/
namespace Sys2Proof.Machine

/-! ### A canonical display is known by its pixels -/

namespace Display

theorem pairwise_of_risingFrom {l : List Nat} {lo bound : Nat} (h : risingFrom lo bound l = true) :
    l.Pairwise (· < ·) := by
  induction l generalizing lo with
  | nil => exact .nil
  | cons p rest ih =>
    obtain ⟨-, -, hrest⟩ := risingFrom_cons.1 h
    exact .cons (fun q hq => (le_of_mem_risingFrom hrest hq).1) (ih hrest)

theorem pixel_eq_true_iff {d : Display} {row col : Nat} : d.pixel row col = true ↔ d.pixelNumber row col ∈ d.lit := by
  simp [pixel]

/-- Every number inside the display is the number of a pixel inside it. -/
theorem exists_pixelNumber_eq {d : Display} {p : Nat} (hw : 0 < d.width) (hp : p < d.height * d.width) :
    ∃ row col, d.Inside (row, col) ∧ d.pixelNumber row col = p :=
  ⟨p / d.width, p % d.width, ⟨Nat.div_lt_of_lt_mul (Nat.mul_comm _ _ ▸ hp), Nat.mod_lt p hw⟩,
    Nat.div_add_mod' p d.width⟩

/-- Canonical displays of one size with the same pixels are equal: their rising lists have the same members. -/
theorem eq_of_pixel_eq {d e : Display} (hd : d.wf = true) (he : e.wf = true) (hw : d.width = e.width)
    (hh : d.height = e.height) (hpix : ∀ row col, d.Inside (row, col) → d.pixel row col = e.pixel row col) : d = e := by
  obtain ⟨hd8, -, hdr⟩ := wf_iff.1 hd
  obtain ⟨-, -, her⟩ := wf_iff.1 he
  have hlit : ∀ p, p < d.height * d.width → (p ∈ d.lit ↔ p ∈ e.lit) := fun p hp => by
    obtain ⟨row, col, hin, rfl⟩ := exists_pixelNumber_eq (by omega) hp
    have hnum : d.pixelNumber row col = e.pixelNumber row col := by rw [pixelNumber, pixelNumber, hw]
    rw [← pixel_eq_true_iff, hpix row col hin, pixel_eq_true_iff, hnum]
  have hmem : ∀ p, p ∈ d.lit ↔ p ∈ e.lit := fun p =>
    ⟨fun hp => (hlit p (le_of_mem_risingFrom hdr hp).2).1 hp,
      fun hp => (hlit p (by rw [hw, hh]; exact (le_of_mem_risingFrom her hp).2)).2 hp⟩
  have hlists : d.lit = e.lit := (pairwise_of_risingFrom hdr).eq_of_mem_iff (pairwise_of_risingFrom her) hmem
  obtain ⟨w, h, lit⟩ := d
  obtain ⟨w', h', lit'⟩ := e
  cases hw
  cases hh
  cases hlists
  rfl

theorem collisionReply_eq_one_iff (c : Bool) : collisionReply c = 1#8 ↔ c = true := by
  cases c <;> decide

theorem collisionReply_cases (c : Bool) : collisionReply c = 1#8 ∨ collisionReply c = 0#8 := by
  cases c
  · exact .inr rfl
  · exact .inl rfl

/-- Plotting a list twice restores every pixel. -/
theorem pixel_plotAll_twice {l : List (Nat × Nat)} {d : Display} (h : d.wf = true) (hl : ∀ q ∈ l, d.Inside q)
    {row col : Nat} (hin : d.Inside (row, col)) :
    (plotAll l ((plotAll l (d, false)).1, false)).1.pixel row col = d.pixel row col := by
  obtain ⟨hw, hh⟩ := plotAll_size l (d, false)
  have hsame : ∀ q, d.Inside q → (plotAll l (d, false)).1.Inside q := fun q hq => by rwa [Inside, hw, hh]
  rw [pixel_plotAll (p := ((plotAll l (d, false)).1, false)) (wf_plotAll h hl) (fun q hq => hsame q (hl q hq))
    (hsame _ hin), pixel_plotAll h hl hin, Bool.xor_assoc, Bool.xor_self, Bool.xor_false]

/-- Plotting a list twice restores the display. -/
theorem plotAll_twice {l : List (Nat × Nat)} {d : Display} (h : d.wf = true) (hl : ∀ q ∈ l, d.Inside q) :
    (plotAll l ((plotAll l (d, false)).1, false)).1 = d := by
  obtain ⟨hw, hh⟩ := plotAll_size l (d, false)
  obtain ⟨hw', hh'⟩ := plotAll_size l ((plotAll l (d, false)).1, false)
  have hin : ∀ q ∈ l, (plotAll l (d, false)).1.Inside q := fun q hq => by rw [Inside, hw, hh]; exact hl q hq
  refine eq_of_pixel_eq (wf_plotAll (wf_plotAll h hl) hin) h (hw'.trans hw) (hh'.trans hh) fun row col hpix => ?_
  refine pixel_plotAll_twice h hl ?_
  rwa [Inside, hw', hh', hw, hh] at hpix

end Display

/-! ### What DRW plots -/

/-- The pixels DRW plots, in its order. -/
def spritePlots (s : State) (x y n : Nibble) : List (Nat × Nat) :=
  Display.plots s.display.width s.display.height ((s.reg x).toNat % s.display.width)
    ((s.reg y).toNat % s.display.height) 0 (Memory.readRange s.mem s.i.toNat n.toNat)

theorem mem_spritePlots {s : State} {x y n : Nibble} {row col : Nat} :
    (row, col) ∈ spritePlots s x y n ↔ SpriteCovers s x y n row col := by
  rw [spritePlots, Display.mem_plots]
  simp only [Memory.length_readRange, Memory.getElem_readRange, Nat.zero_add, Prod.mk.injEq, exists_prop, SpriteCovers]

theorem inside_of_mem_spritePlots {s : State} {x y n : Nibble} (h : s.display.wf = true) :
    ∀ q ∈ spritePlots s x y n, s.display.Inside q := fun _ => Display.inside_of_mem_plots h

theorem nodup_spritePlots {s : State} {x y n : Nibble} (h : s.display.wf = true) (hn : n.toNat ≤ s.display.height) :
    (spritePlots s x y n).Nodup :=
  Display.nodup_plots (Display.wf_iff.1 h).1 (by rw [Memory.length_readRange, Nat.zero_add]; exact hn)

theorem drawSprite_display_eq (x y n : Nibble) (s : State) :
    (drawSprite x y n s).display = (Display.plotAll (spritePlots s x y n) (s.display, false)).1 :=
  congrArg Prod.fst (Display.draw_eq_plotAll _ _ _ _)

theorem drawSprite_vf (x y n : Nibble) (s : State) :
    (drawSprite x y n s).reg vf =
      Display.collisionReply (Display.plotAll (spritePlots s x y n) (s.display, false)).2 := by
  rw [spritePlots, ← Display.draw_eq_plotAll]
  exact State.setReg_reg_same _ vf _

theorem drawSprite_vf_cases (x y n : Nibble) (s : State) :
    (drawSprite x y n s).reg vf = 1#8 ∨ (drawSprite x y n s).reg vf = 0#8 := by
  rw [drawSprite_vf]
  exact Display.collisionReply_cases _

theorem drawSprite_reg_of_ne {x y n r : Nibble} (s : State) (h : r ≠ vf) : (drawSprite x y n s).reg r = s.reg r :=
  setReg_reg_of_ne (s.setDisplay _) _ h

theorem exec_drw_inside {x y n : Nibble} {s : State} (h : s.i.toNat + n.toNat ≤ 4096) :
    exec (.drw x y n) s = .next (drawSprite x y n s) := exec_of_range_inside (exec_drw x y n s) h

/-- A pixel that a sprite no higher than the display covers is inverted, and no other. -/
theorem drawSprite_pixel {x y n : Nibble} {s : State} (h : s.display.wf = true) (hn : n.toNat ≤ s.display.height)
    {row col : Nat} (hin : s.display.Inside (row, col)) :
    (drawSprite x y n s).display.pixel row col = true ↔
      ¬ (s.display.pixel row col = true ↔ SpriteCovers s x y n row col) := by
  rw [drawSprite_display_eq, Display.pixel_plotAll h (inside_of_mem_spritePlots h) hin, ← mem_spritePlots]
  by_cases hmem : (row, col) ∈ spritePlots s x y n
  · rw [List.count_eq_one_of_mem (nodup_spritePlots h hn) hmem]
    simp [hmem]
  · rw [List.count_eq_zero_of_not_mem hmem]
    simp [hmem]

theorem drawSprite_collision {x y n : Nibble} {s : State} (h : s.display.wf = true)
    (hn : n.toNat ≤ s.display.height) :
    (drawSprite x y n s).reg vf = 1#8 ↔
      ∃ q ∈ spritePlots s x y n, s.display.pixel q.1 q.2 = true := by
  rw [drawSprite_vf, Display.collisionReply_eq_one_iff,
    Display.collision_plotAll h (inside_of_mem_spritePlots h) (nodup_spritePlots h hn)]
  simp

/-! ### The statements -/

/-- Settles O43: the list plotted has no repeats, its members are the covered pixels, and each lies inside. -/
theorem drawXorsSpriteAndReportsCollision : Obligations.DrawXorsSpriteAndReportsCollision := fun x y n s h hn hin => by
  refine ⟨_, exec_drw_inside hin, fun row col hr hc => drawSprite_pixel h hn ⟨hr, hc⟩,
    (drawSprite_collision h hn).trans ⟨?_, ?_⟩, drawSprite_vf_cases x y n s⟩
  · rintro ⟨⟨row, col⟩, hq, hpix⟩
    obtain ⟨hr, hc⟩ := inside_of_mem_spritePlots h _ hq
    exact ⟨row, col, hr, hc, hpix, mem_spritePlots.1 hq⟩
  · rintro ⟨row, col, -, -, hpix, hcov⟩
    exact ⟨(row, col), mem_spritePlots.2 hcov, hpix⟩

/-- Settles O44: the next state is `drawSprite`, which writes the display, `VF` and `PC`; no byte plots nothing. -/
theorem drawCompletesAndKeepsTheRest : Obligations.DrawCompletesAndKeepsTheRest := fun x y n s hin => by
  obtain ⟨hw, hh⟩ := drawSprite_size x y n s
  refine ⟨_, exec_drw_inside hin, drawSprite_vf_cases x y n s, fun hn => ?_, hw, hh, rfl,
    fun r hr => drawSprite_reg_of_ne s (List.ne_of_not_mem_cons hr), rfl, ⟨rfl, rfl⟩, ⟨rfl, fun _ => rfl⟩, fun _ => rfl,
    rfl, ⟨rfl, rfl⟩⟩
  subst hn
  exact ⟨drawSprite_vf x y 0#4 s, drawSprite_display_eq x y 0#4 s⟩

/-- The second draw plots the list of the first: place, bytes and size are as before. -/
theorem spritePlots_drawSprite {x y : Nibble} (hx : x ≠ vf) (hy : y ≠ vf) (n : Nibble) (s : State) :
    spritePlots (drawSprite x y n s) x y n = spritePlots s x y n := by
  obtain ⟨hw, hh⟩ := drawSprite_size x y n s
  rw [spritePlots, hw, hh, drawSprite_reg_of_ne s hx, drawSprite_reg_of_ne s hy]
  rfl

theorem drawSprite_twice_display {x y n : Nibble} {s : State} (hx : x ≠ vf) (hy : y ≠ vf) (h : s.display.wf = true) :
    (drawSprite x y n (drawSprite x y n s)).display = s.display := by
  rw [drawSprite_display_eq, spritePlots_drawSprite hx hy, drawSprite_display_eq]
  exact Display.plotAll_twice h (inside_of_mem_spritePlots h)

/-- A byte that is not 0 has a set bit in one of the eight columns. -/
theorem exists_spriteBit {b : Byte} (h : b ≠ 0#8) : ∃ c < 8, Display.spriteBit b c = true := by
  by_contra hnone
  refine h (BitVec.eq_of_getLsbD_eq fun k hk => ?_)
  have hbit : Display.spriteBit b (7 - k) ≠ true := fun hb => hnone ⟨7 - k, by omega, hb⟩
  rw [Display.spriteBit, show 7 - (7 - k) = k by omega] at hbit
  rw [Bool.eq_false_of_not_eq_true hbit, BitVec.getLsbD_zero]

/-- A sprite with a byte that is not 0 covers some pixel. -/
theorem exists_mem_spritePlots {s : State} {x y n : Nibble}
    (h : ∃ k, k < n.toNat ∧ Memory.read s.mem (s.i.toNat + k) ≠ 0#8) : ∃ q, q ∈ spritePlots s x y n := by
  obtain ⟨k, hk, hne⟩ := h
  obtain ⟨c, hc, hbit⟩ := exists_spriteBit hne
  exact ⟨_, mem_spritePlots.2 ⟨k, c, hk, hc, hbit, rfl, rfl⟩⟩

theorem pixel_of_lit_nil {d : Display} (h : d.lit = []) (row col : Nat) : d.pixel row col = false := by
  simp [Display.pixel, h]

/-- Settles O45: the second draw inverts what the first inverted; on a clear display the first meets no set pixel and the
second meets those the first has set. -/
theorem drawTwiceRestoresDisplay : Obligations.DrawTwiceRestoresDisplay := fun x y n s hx hy h hin => by
  have hwf : (drawSprite x y n s).display.wf = true := Display.wf_draw h _ _ _
  refine ⟨_, _, exec_drw_inside hin, exec_drw_inside (s := drawSprite x y n s) hin, drawSprite_twice_display hx hy h,
    fun hclear hn hbyte => ⟨?_, ?_⟩⟩
  · refine (drawSprite_vf_cases x y n s).resolve_left fun hone => ?_
    obtain ⟨q, -, hpix⟩ := (drawSprite_collision h hn).1 hone
    rw [pixel_of_lit_nil hclear] at hpix
    cases hpix
  · obtain ⟨⟨row, col⟩, hq⟩ := exists_mem_spritePlots (x := x) (y := y) hbyte
    rw [drawSprite_collision hwf (by rw [(drawSprite_size x y n s).2]; exact hn), spritePlots_drawSprite hx hy]
    refine ⟨(row, col), hq, (drawSprite_pixel h hn (inside_of_mem_spritePlots h _ hq)).2 fun hiff => ?_⟩
    have hpix := hiff.2 (mem_spritePlots.1 hq)
    rw [pixel_of_lit_nil hclear] at hpix
    cases hpix

end Sys2Proof.Machine
end

