-- ==== Sys2Proof/Proofs/Fairness.lean ====
section
/-!
Proofs about whole runs (70_reset_and_hazards.md rule R249): TIMER ticks come infinitely often, and a timer that nothing
reloads runs out.
-/
namespace Sys2Proof.Machine

/-! ### TIMER ticks along a run -/

theorem run_turn {run : Nat → State} (h : IsRun run) (n : Nat) : (run n).turn = (run 0).turn + n := by
  induction n with
  | zero => rfl
  | succ n ih => rw [step_turn (h n), ih, Nat.add_assoc]

/-- From every point of a run on, a step comes before which ticks fall. -/
theorem exists_timerTicksBefore_pos {run : Nat → State} (h : IsRun run) (n : Nat) :
    ∃ m, n ≤ m ∧ 0 < timerTicksBefore (run m).turn := by
  obtain ⟨turn, hle, hpos⟩ := scheduledTicks_fair Config.timerGap Config.timerExtra (run n).turn
  have hn := run_turn h n
  refine ⟨turn - (run 0).turn, by omega, ?_⟩
  rw [run_turn h, show (run 0).turn + (turn - (run 0).turn) = turn by omega]
  exact hpos

/-- Settles O59: the run's turns are consecutive, and the schedule is fair from every turn on. -/
theorem timerTicksInfinitelyOften : Obligations.TimerTicksInfinitelyOften := fun run h n => by
  obtain ⟨m, hle, hpos⟩ := exists_timerTicksBefore_pos h n
  refine ⟨m, hle, timerTicksBefore (run m).turn - 1, ?_⟩
  rw [betweenTicks_eq_iterate, show timerTicksBefore (run m).turn - 1 + 1 = timerTicksBefore (run m).turn by omega]

/-! ### A timer over one step -/

/-- The step's CPU tick leaves a timer that is kept by every raise and by the instruction about to run. -/
theorem step_keeps_field {α : Type} {field : State → α} {s t : State} (hraise : ∀ r u, field (raise r u) = field u)
    (hexec : ∀ i u, AboutToRun i s → exec i (betweenTicks s) = .next u → field u = field (betweenTicks s))
    (hstep : step s = .next t) : field t = field (betweenTicks s) := by
  rcases step_cases s with ⟨_, -, hs⟩ | ⟨-, r, -, hs⟩ | ⟨-, _, e, -, -, hs⟩ | ⟨i, hi, hs⟩
  · cases hs.symm.trans hstep; rfl
  · cases hs.symm.trans hstep; exact hraise _ _
  · cases hs.symm.trans hstep; exact hraise _ _
  · obtain ⟨u, hu⟩ := exists_exec_next i (betweenTicks s)
    rw [hu, checked_next] at hs
    cases hs.symm.trans hstep
    rcases endOfTick_cases u with ⟨-, -, he⟩ | ⟨-, he⟩ | ⟨-, -, he⟩ <;> rw [he]
    · rw [hraise, hexec i u hi hu]
    · exact hexec i u hi hu
    · exact hexec i u hi hu

theorem step_dt {s t : State} (hload : ∀ x, ¬ AboutToRun (.ldDtVx x) s) (hstep : step s = .next t) :
    t.dt.toNat = s.dt.toNat - timerTicksBefore s.turn := by
  have hkeeps : t.dt = (betweenTicks s).dt := step_keeps_field (fun _ _ => rfl) (fun i u hi hu => by
    obtain ⟨hdt | ⟨x, rfl, -⟩, -⟩ := timersWrittenOnlyByTheirLoads i _ u hu
    · exact hdt
    · exact absurd hi (hload x)) hstep
  rw [hkeeps, betweenTicks_dt, drain_toNat]

theorem step_st {s t : State} (hload : ∀ x, ¬ AboutToRun (.ldStVx x) s) (hstep : step s = .next t) :
    t.st.toNat = s.st.toNat - timerTicksBefore s.turn := by
  have hkeeps : t.st = (betweenTicks s).st := step_keeps_field (fun _ _ => rfl) (fun i u hi hu => by
    obtain ⟨-, hst | ⟨x, rfl, -⟩⟩ := timersWrittenOnlyByTheirLoads i _ u hu
    · exact hst
    · exact absurd hi (hload x)) hstep
  rw [hkeeps, betweenTicks_st, drain_toNat]

/-! ### Counting down -/

/-- A count that each step lowers by that step's ticks, of which a positive number comes again and again, reaches 0 and
stays there: by induction on the count. -/
theorem eventually_zero {count ticks : Nat → Nat} (hstep : ∀ n, count (n + 1) = count n - ticks n)
    (hfair : ∀ n, ∃ m, n ≤ m ∧ 0 < ticks m) : ∃ n, ∀ m, n ≤ m → count m = 0 := by
  have hanti : Antitone count := antitone_nat_of_succ_le fun n => hstep n ▸ Nat.sub_le _ _
  have hdown : ∀ bound n, count n ≤ bound → ∃ n', ∀ m, n' ≤ m → count m = 0 := by
    intro bound
    induction bound with
    | zero => exact fun n hn => ⟨n, fun m hm => Nat.le_zero.1 ((hanti hm).trans hn)⟩
    | succ bound ih =>
      intro n hn
      obtain ⟨m, hm, hpos⟩ := hfair n
      have hle := hanti hm
      have hnext := hstep m
      exact ih (m + 1) (by omega)
  exact hdown (count 0) 0 le_rfl

/-- Settles O60: each step lowers the timer by its ticks, and ticks come infinitely often. -/
theorem timersRunOutUnlessReloaded : Obligations.TimersRunOutUnlessReloaded := fun run h => by
  have hfair := exists_timerTicksBefore_pos h
  refine ⟨fun hload => ?_, fun hload => ?_⟩
  · obtain ⟨n, hn⟩ := eventually_zero (count := fun n => (run n).dt.toNat) (fun n => step_dt (hload n) (h n)) hfair
    exact ⟨n, fun m hm => BitVec.eq_of_toNat_eq (hn m hm)⟩
  · obtain ⟨n, hn⟩ := eventually_zero (count := fun n => (run n).st.toNat) (fun n => step_st (hload n) (h n)) hfair
    exact ⟨n, fun m hm => BitVec.eq_of_toNat_eq (hn m hm)⟩

end Sys2Proof.Machine
end
